-- ==== Sys2Proof/Word.lean ====
section
/-! DEFINITION. The widths of the core's values (00_scope.md R7, R10): the 8-bit byte of V0-VF and of
memory, the 16-bit word of I, pc, the stack entries and the instruction, the 12-bit address nnn. -/

namespace Sys2Proof

/-- A byte: a general register, a timer, a memory byte, the immediate kk (00_scope.md R7). -/
abbrev Byte := BitVec 8

/-- A 16-bit word: I, pc, a return address, an instruction (00_scope.md R7). -/
abbrev Word := BitVec 16

/-- A 12-bit address immediate nnn (30_encoding.md R71). -/
abbrev Addr12 := BitVec 12

end Sys2Proof
end

