-- ==== Sys2Proof/Config.lean ====
section
/-! DEFINITION. The parameters that the source leaves open (00_scope.md R8) with all their legal values,
the constants it fixes (R7), and the free values (R14, 42_alu.md R123, 45_keypad_timers.md R185). -/

namespace Sys2Proof

/-- MEM_SIZE (00_scope.md R7). -/
abbrev memSize : Nat := 4096

/-- PROTECTED_LIMIT (00_scope.md R7): writes below it fail. -/
abbrev protectedLimit : Nat := 0x200

/-- ROM_BASE (00_scope.md R7). -/
abbrev romBase : Nat := 0x200

/-- ROM_MAX (00_scope.md R7): the most bytes a ROM image may have. -/
abbrev romMax : Nat := 3584

/-- FONT_GLYPHS of 5 bytes (00_scope.md R7). -/
abbrev fontSize : Nat := 80

/-- SHIFT_SOURCE: the register that 8xy6 and 8xyE shift (00_scope.md R8, D26). -/
inductive ShiftSource
  | vx
  | vy
  deriving DecidableEq, Repr

/-- ALU_VF_DEST: the order of the two writes when x = F (00_scope.md R8, 42_alu.md R123, D5). -/
inductive AluVfDest
  | resultWins
  | flagWins
  | any
  deriving DecidableEq, Repr

/-- DECODE_DONT_CARE: whether every fixed digit must match (00_scope.md R8, 30_encoding.md R75, R76, D6). -/
inductive DecodeDontCare
  | strict
  | lax
  deriving DecidableEq, Repr

/-- MISALIGNED_FETCH: what a fetch at an odd pc does (00_scope.md R8, 30_encoding.md R82, D2). -/
inductive MisalignedFetch
  | fetch
  | fault
  deriving DecidableEq, Repr

/-- KEY_SELECT: which of several newly pressed keys Fx0A stores (00_scope.md R8, 45_keypad_timers.md R185, D10). -/
inductive KeySelect
  | lowest
  | any
  deriving DecidableEq, Repr

/-- The parameters of 00_scope.md R8 but the RNG. The type of `fontBase` is FONT_BASE + 80 ≤ 0x200, and
that of `fontBytes` is its 80 bytes, so no illegal value can be built (DEDUCED, safe; log 13). -/
structure Config where
  /-- FONT_BASE -/
  fontBase : Fin (protectedLimit - fontSize + 1)
  /-- FONT_BYTES -/
  fontBytes : Vector Byte fontSize
  /-- SHIFT_SOURCE -/
  shiftSource : ShiftSource
  /-- ALU_VF_DEST -/
  aluVfDest : AluVfDest
  /-- DECODE_DONT_CARE -/
  decodeDontCare : DecodeDontCare
  /-- MISALIGNED_FETCH -/
  misalignedFetch : MisalignedFetch
  /-- KEY_SELECT -/
  keySelect : KeySelect
  deriving DecidableEq, Repr

/-- FREE VALUE (log 2): the RNG byte of the draw with this number, with no law on it (00_scope.md R14). -/
opaque Config.rngByte : Nat → Byte

/-- FREE VALUE (log 3): VF after a flag-setting ALU instruction with x = F under ALU_VF_DEST = any
(42_alu.md R123 "any byte, a free draw"). -/
opaque Config.anyVF : Nat → Byte

/-- FREE VALUE (log 3): which of the fresh keys is stored under KEY_SELECT = any (45_keypad_timers.md R185
"any element of fresh, a free choice"), as a position in the list of fresh keys, taken modulo its length. -/
opaque Config.anyKey : Nat → Nat

end Sys2Proof
end

