-- ==== Sys2Proof/Syntax.lean ====
section
/-! DEFINITION. The instructions: one constructor per row of the opcode map (30_encoding.md R74,
opcode_table.json), with the fields that R71 cuts from the word. -/

namespace Sys2Proof

/-- A register index, 0..15, selecting V[i] (30_encoding.md R73). -/
abbrev Reg := Fin 16

/-- A 4-bit digit of the word that selects no register: the row count n of Dxyn, and the digits that
DECODE_DONT_CARE = lax ignores (30_encoding.md R71, R76). -/
abbrev Nibble := Fin 16

/-- The instructions of 30_encoding.md R74. CLS and RET hold the digit x of group 0, SE_REG and SNE_REG the
digit n of groups 5 and 9. No meaning reads them. Under strict decoding they are 0 (`Instr.wellFormed`), and under
lax they tell apart the words that decode alike (R76), so that `encode` gives back the very word that was fetched,
which the fault record holds (R83; log 9, DESIGN CHOICE, safe). -/
inductive Instr
  /-- CLS, 00E0 (44_display.md R172) -/
  | cls (d : Nibble)
  /-- RET, 00EE (41_control_flow.md R101) -/
  | ret (d : Nibble)
  /-- JP nnn, 1nnn (41_control_flow.md R102) -/
  | jp (nnn : Addr12)
  /-- CALL nnn, 2nnn (41_control_flow.md R103) -/
  | call (nnn : Addr12)
  /-- SE Vx, kk, 3xkk (41_control_flow.md R104) -/
  | seImm (x : Reg) (kk : Byte)
  /-- SNE Vx, kk, 4xkk (41_control_flow.md R105) -/
  | sneImm (x : Reg) (kk : Byte)
  /-- SE Vx, Vy, 5xy0 (41_control_flow.md R106) -/
  | seReg (x y : Reg) (d : Nibble)
  /-- LD Vx, kk, 6xkk (42_alu.md R124) -/
  | ldImm (x : Reg) (kk : Byte)
  /-- ADD Vx, kk, 7xkk (42_alu.md R125) -/
  | addImm (x : Reg) (kk : Byte)
  /-- LD Vx, Vy, 8xy0 (42_alu.md R126) -/
  | ldReg (x y : Reg)
  /-- OR Vx, Vy, 8xy1 (42_alu.md R127) -/
  | orReg (x y : Reg)
  /-- AND Vx, Vy, 8xy2 (42_alu.md R128) -/
  | andReg (x y : Reg)
  /-- XOR Vx, Vy, 8xy3 (42_alu.md R129) -/
  | xorReg (x y : Reg)
  /-- ADD Vx, Vy, 8xy4 (42_alu.md R130) -/
  | addReg (x y : Reg)
  /-- SUB Vx, Vy, 8xy5 (42_alu.md R131) -/
  | sub (x y : Reg)
  /-- SHR Vx, Vy, 8xy6 (42_alu.md R132) -/
  | shr (x y : Reg)
  /-- SUBN Vx, Vy, 8xy7 (42_alu.md R133) -/
  | subn (x y : Reg)
  /-- SHL Vx, Vy, 8xyE (42_alu.md R134) -/
  | shl (x y : Reg)
  /-- SNE Vx, Vy, 9xy0 (41_control_flow.md R107) -/
  | sneReg (x y : Reg) (d : Nibble)
  /-- LD I, nnn, Annn (43_index_memory.md R150) -/
  | ldI (nnn : Addr12)
  /-- JP V0, nnn, Bnnn (41_control_flow.md R108) -/
  | jpV0 (nnn : Addr12)
  /-- RND Vx, kk, Cxkk (42_alu.md R135) -/
  | rnd (x : Reg) (kk : Byte)
  /-- DRW Vx, Vy, n, Dxyn (44_display.md R173) -/
  | drw (x y : Reg) (n : Nibble)
  /-- SKP Vx, Ex9E (45_keypad_timers.md R181) -/
  | skp (x : Reg)
  /-- SKNP Vx, ExA1 (45_keypad_timers.md R182) -/
  | sknp (x : Reg)
  /-- LD Vx, DT, Fx07 (45_keypad_timers.md R183) -/
  | ldVxDt (x : Reg)
  /-- LD Vx, K, Fx0A (45_keypad_timers.md R184) -/
  | ldVxK (x : Reg)
  /-- LD DT, Vx, Fx15 (45_keypad_timers.md R186) -/
  | ldDt (x : Reg)
  /-- LD ST, Vx, Fx18 (45_keypad_timers.md R187) -/
  | ldSt (x : Reg)
  /-- ADD I, Vx, Fx1E (43_index_memory.md R151) -/
  | addI (x : Reg)
  /-- LD F, Vx, Fx29 (43_index_memory.md R152) -/
  | ldF (x : Reg)
  /-- LD B, Vx, Fx33 (43_index_memory.md R153) -/
  | ldB (x : Reg)
  /-- LD [I], Vx, Fx55 (43_index_memory.md R154) -/
  | ldMemVx (x : Reg)
  /-- LD Vx, [I], Fx65 (43_index_memory.md R155) -/
  | ldVxMem (x : Reg)
  deriving DecidableEq, Repr

/-- The rows of the opcode map by their names in opcode_table.json (30_encoding.md R74). -/
inductive Mnemonic
  | CLS | RET | JP | CALL | SE_IMM | SNE_IMM | SE_REG | LD_IMM | ADD_IMM | LD_REG | OR | AND | XOR
  | ADD_REG | SUB | SHR | SUBN | SHL | SNE_REG | LD_I | JP_V0 | RND | DRW | SKP | SKNP | LD_VX_DT
  | LD_VX_K | LD_DT | LD_ST | ADD_I | LD_F | LD_B | LD_MEM_VX | LD_VX_MEM
  deriving DecidableEq, Repr

/-- The row of the opcode map that an instruction belongs to. -/
def Instr.mnemonic : Instr → Mnemonic
  | .cls _ => .CLS
  | .ret _ => .RET
  | .jp _ => .JP
  | .call _ => .CALL
  | .seImm _ _ => .SE_IMM
  | .sneImm _ _ => .SNE_IMM
  | .seReg _ _ _ => .SE_REG
  | .ldImm _ _ => .LD_IMM
  | .addImm _ _ => .ADD_IMM
  | .ldReg _ _ => .LD_REG
  | .orReg _ _ => .OR
  | .andReg _ _ => .AND
  | .xorReg _ _ => .XOR
  | .addReg _ _ => .ADD_REG
  | .sub _ _ => .SUB
  | .shr _ _ => .SHR
  | .subn _ _ => .SUBN
  | .shl _ _ => .SHL
  | .sneReg _ _ _ => .SNE_REG
  | .ldI _ => .LD_I
  | .jpV0 _ => .JP_V0
  | .rnd _ _ => .RND
  | .drw _ _ _ => .DRW
  | .skp _ => .SKP
  | .sknp _ => .SKNP
  | .ldVxDt _ => .LD_VX_DT
  | .ldVxK _ => .LD_VX_K
  | .ldDt _ => .LD_DT
  | .ldSt _ => .LD_ST
  | .addI _ => .ADD_I
  | .ldF _ => .LD_F
  | .ldB _ => .LD_B
  | .ldMemVx _ => .LD_MEM_VX
  | .ldVxMem _ => .LD_VX_MEM

end Sys2Proof
end

