-- ==== Sys2Proof/WellFormed.lean ====
section
/-! DEFINITION. Which instructions a word can stand for. The types of the operands already hold each to the
range that 30_encoding.md R71 gives its field; what is left to check are the digits that strict decoding
fixes and lax decoding ignores (R75, R76). -/

namespace Sys2Proof

/-- Every fixed digit of the pattern is the pattern's under strict decoding (30_encoding.md R75); under lax
decoding the x nibble of group 0 and the n nibble of groups 5 and 9 may be anything (R76). -/
def Instr.wellFormed (m : DecodeDontCare) : Instr → Bool
  | .cls d => m == .lax || d == 0
  | .ret d => m == .lax || d == 0
  | .seReg _ _ d => m == .lax || d == 0
  | .sneReg _ _ d => m == .lax || d == 0
  | .jp _ => true
  | .call _ => true
  | .seImm _ _ => true
  | .sneImm _ _ => true
  | .ldImm _ _ => true
  | .addImm _ _ => true
  | .ldReg _ _ => true
  | .orReg _ _ => true
  | .andReg _ _ => true
  | .xorReg _ _ => true
  | .addReg _ _ => true
  | .sub _ _ => true
  | .shr _ _ => true
  | .subn _ _ => true
  | .shl _ _ => true
  | .ldI _ => true
  | .jpV0 _ => true
  | .rnd _ _ => true
  | .drw _ _ _ => true
  | .skp _ => true
  | .sknp _ => true
  | .ldVxDt _ => true
  | .ldVxK _ => true
  | .ldDt _ => true
  | .ldSt _ => true
  | .addI _ => true
  | .ldF _ => true
  | .ldB _ => true
  | .ldMemVx _ => true
  | .ldVxMem _ => true

end Sys2Proof
end

