-- ==== Sys2Proof/Decode.lean ====
section
/-! DEFINITION. The decoder (30_encoding.md R70-R77, R81), total on any bytes, the encoder written from the same
map, the byte order of the instruction word (20_memory.md R56), and the map itself as rows (R74). -/

namespace Sys2Proof

/-! ### The fields of a word (30_encoding.md R71), as the quotients and remainders of 00_scope.md R9 and R10 -/

/-- The 4-bit field of `w` whose lowest bit is `lo`. -/
def nibbleAt (w : Word) (lo : Nat) : Fin 16 := ⟨w.toNat / 2 ^ lo % 16, Nat.mod_lt _ (by decide)⟩

/-- op = w[15:12]. -/
def opField (w : Word) : Nibble := nibbleAt w 12

/-- x = w[11:8]. -/
def xField (w : Word) : Reg := nibbleAt w 8

/-- y = w[7:4]. -/
def yField (w : Word) : Reg := nibbleAt w 4

/-- n = w[3:0]. -/
def nField (w : Word) : Nibble := nibbleAt w 0

/-- kk = w[7:0]. -/
def kkField (w : Word) : Byte := BitVec.ofNat 8 w.toNat

/-- nnn = w[11:0]. -/
def nnnField (w : Word) : Addr12 := BitVec.ofNat 12 w.toNat

/-! ### Decoding -/

/-- Why a decode gives no instruction. -/
inductive DecodeError
  /-- No row of the opcode map matches the word (30_encoding.md R75). -/
  | unknownOpcode (w : Word)
  /-- Fewer than two bytes: there is no whole word to decode (30_encoding.md R70). -/
  | truncated
  deriving DecidableEq, Repr

/-- An instruction if its ignored digits are allowed, else the word is unknown (30_encoding.md R75, R76). -/
def checked (m : DecodeDontCare) (w : Word) (i : Instr) : Except DecodeError Instr :=
  if i.wellFormed m then .ok i else .error (.unknownOpcode w)

/-- Group 0: the low byte selects, and the x nibble must be 0 under strict (30_encoding.md R74, R76). -/
def decodeGroup0 (m : DecodeDontCare) (w : Word) : Except DecodeError Instr :=
  match (kkField w).toNat with
  | 0xE0 => checked m w (.cls (xField w))
  | 0xEE => checked m w (.ret (xField w))
  | _ => .error (.unknownOpcode w)

/-- Group 8: the low nibble selects (30_encoding.md R74). -/
def decodeGroup8 (w : Word) : Except DecodeError Instr :=
  match (nField w).val with
  | 0x0 => .ok (.ldReg (xField w) (yField w))
  | 0x1 => .ok (.orReg (xField w) (yField w))
  | 0x2 => .ok (.andReg (xField w) (yField w))
  | 0x3 => .ok (.xorReg (xField w) (yField w))
  | 0x4 => .ok (.addReg (xField w) (yField w))
  | 0x5 => .ok (.sub (xField w) (yField w))
  | 0x6 => .ok (.shr (xField w) (yField w))
  | 0x7 => .ok (.subn (xField w) (yField w))
  | 0xE => .ok (.shl (xField w) (yField w))
  | _ => .error (.unknownOpcode w)

/-- Group E: the low byte selects (30_encoding.md R74). -/
def decodeGroupE (w : Word) : Except DecodeError Instr :=
  match (kkField w).toNat with
  | 0x9E => .ok (.skp (xField w))
  | 0xA1 => .ok (.sknp (xField w))
  | _ => .error (.unknownOpcode w)

/-- Group F: the low byte selects (30_encoding.md R74). -/
def decodeGroupF (w : Word) : Except DecodeError Instr :=
  match (kkField w).toNat with
  | 0x07 => .ok (.ldVxDt (xField w))
  | 0x0A => .ok (.ldVxK (xField w))
  | 0x15 => .ok (.ldDt (xField w))
  | 0x18 => .ok (.ldSt (xField w))
  | 0x1E => .ok (.addI (xField w))
  | 0x29 => .ok (.ldF (xField w))
  | 0x33 => .ok (.ldB (xField w))
  | 0x55 => .ok (.ldMemVx (xField w))
  | 0x65 => .ok (.ldVxMem (xField w))
  | _ => .error (.unknownOpcode w)

/-- The decoder: two-level dispatch, first on the 16 values of the top nibble (30_encoding.md R74, R81). -/
def decode (m : DecodeDontCare) (w : Word) : Except DecodeError Instr :=
  match (opField w).val with
  | 0x0 => decodeGroup0 m w
  | 0x1 => .ok (.jp (nnnField w))
  | 0x2 => .ok (.call (nnnField w))
  | 0x3 => .ok (.seImm (xField w) (kkField w))
  | 0x4 => .ok (.sneImm (xField w) (kkField w))
  | 0x5 => checked m w (.seReg (xField w) (yField w) (nField w))
  | 0x6 => .ok (.ldImm (xField w) (kkField w))
  | 0x7 => .ok (.addImm (xField w) (kkField w))
  | 0x8 => decodeGroup8 w
  | 0x9 => checked m w (.sneReg (xField w) (yField w) (nField w))
  | 0xA => .ok (.ldI (nnnField w))
  | 0xB => .ok (.jpV0 (nnnField w))
  | 0xC => .ok (.rnd (xField w) (kkField w))
  | 0xD => .ok (.drw (xField w) (yField w) (nField w))
  | 0xE => decodeGroupE w
  | 0xF => decodeGroupF w
  | _ => .error (.unknownOpcode w)

/-- The word of two fetched bytes: the byte at the lower address is w[15:8] (20_memory.md R56, D1, which the
spec marks as general knowledge; log 14). -/
def wordOfBytes (hi lo : Byte) : Word := BitVec.ofNat 16 (hi.toNat * 256 + lo.toNat)

/-- w[15:8], the byte at the lower address (20_memory.md R56). -/
def hiByte (w : Word) : Byte := BitVec.ofNat 8 (w.toNat / 256)

/-- w[7:0], the byte at the higher address (20_memory.md R56). -/
def loByte (w : Word) : Byte := BitVec.ofNat 8 w.toNat

/-- The bytes of a word in address order (20_memory.md R56). -/
def bytesOfWord (w : Word) : List Byte := [hiByte w, loByte w]

/-- Decodes the first instruction of any bytes and gives back the rest (30_encoding.md R70). -/
def decodeBytes (m : DecodeDontCare) : List Byte → Except DecodeError (Instr × List Byte)
  | hi :: lo :: rest =>
    match decode m (wordOfBytes hi lo) with
    | .ok i => .ok (i, rest)
    | .error e => .error e
  | _ => .error .truncated

/-- What the decoder reads, under the default DECODE_DONT_CARE, from a table word of `nbits` bits, laid out
as the hardware stores it. -/
def decodeTableWord (nbits w : Nat) : Option Instr :=
  match decodeBytes .strict (bytesOfWord (BitVec.ofNat 16 (w % 2 ^ nbits))) with
  | .ok (i, _) => some i
  | .error _ => none

/-! ### Encoding, from the patterns of 30_encoding.md R74 -/

/-- The word with these four digits, the most significant first (00_scope.md R9). -/
def digits (op : Nat) (x y n : Fin 16) : Word :=
  BitVec.ofNat 16 (op * 0x1000 + x.val * 0x100 + y.val * 0x10 + n.val)

/-- The pattern with a digit, a register and a byte: `3xkk`, and `Fx07` with a fixed byte. -/
def digitRegByte (op : Nat) (x : Reg) (kk : Byte) : Word :=
  BitVec.ofNat 16 (op * 0x1000 + x.val * 0x100 + kk.toNat)

/-- The pattern with a digit and an address: `1nnn`. -/
def digitAddr (op : Nat) (nnn : Addr12) : Word := BitVec.ofNat 16 (op * 0x1000 + nnn.toNat)

/-- The word of an instruction (30_encoding.md R74; the ignored digits of R76 as they stand). -/
def encode : Instr → Word
  | .cls d => digitRegByte 0x0 d 0xE0
  | .ret d => digitRegByte 0x0 d 0xEE
  | .jp nnn => digitAddr 0x1 nnn
  | .call nnn => digitAddr 0x2 nnn
  | .seImm x kk => digitRegByte 0x3 x kk
  | .sneImm x kk => digitRegByte 0x4 x kk
  | .seReg x y d => digits 0x5 x y d
  | .ldImm x kk => digitRegByte 0x6 x kk
  | .addImm x kk => digitRegByte 0x7 x kk
  | .ldReg x y => digits 0x8 x y 0x0
  | .orReg x y => digits 0x8 x y 0x1
  | .andReg x y => digits 0x8 x y 0x2
  | .xorReg x y => digits 0x8 x y 0x3
  | .addReg x y => digits 0x8 x y 0x4
  | .sub x y => digits 0x8 x y 0x5
  | .shr x y => digits 0x8 x y 0x6
  | .subn x y => digits 0x8 x y 0x7
  | .shl x y => digits 0x8 x y 0xE
  | .sneReg x y d => digits 0x9 x y d
  | .ldI nnn => digitAddr 0xA nnn
  | .jpV0 nnn => digitAddr 0xB nnn
  | .rnd x kk => digitRegByte 0xC x kk
  | .drw x y n => digits 0xD x y n
  | .skp x => digitRegByte 0xE x 0x9E
  | .sknp x => digitRegByte 0xE x 0xA1
  | .ldVxDt x => digitRegByte 0xF x 0x07
  | .ldVxK x => digitRegByte 0xF x 0x0A
  | .ldDt x => digitRegByte 0xF x 0x15
  | .ldSt x => digitRegByte 0xF x 0x18
  | .addI x => digitRegByte 0xF x 0x1E
  | .ldF x => digitRegByte 0xF x 0x29
  | .ldB x => digitRegByte 0xF x 0x33
  | .ldMemVx x => digitRegByte 0xF x 0x55
  | .ldVxMem x => digitRegByte 0xF x 0x65

/-! ### The opcode map as rows (30_encoding.md R74), the reading that the decoder is held against -/

/-- The match and the mask of a row of the opcode map (30_encoding.md R74). -/
def Mnemonic.matchAndMask : Mnemonic → Word × Word
  | .CLS => (0x00E0, 0xFFFF)
  | .RET => (0x00EE, 0xFFFF)
  | .JP => (0x1000, 0xF000)
  | .CALL => (0x2000, 0xF000)
  | .SE_IMM => (0x3000, 0xF000)
  | .SNE_IMM => (0x4000, 0xF000)
  | .SE_REG => (0x5000, 0xF00F)
  | .LD_IMM => (0x6000, 0xF000)
  | .ADD_IMM => (0x7000, 0xF000)
  | .LD_REG => (0x8000, 0xF00F)
  | .OR => (0x8001, 0xF00F)
  | .AND => (0x8002, 0xF00F)
  | .XOR => (0x8003, 0xF00F)
  | .ADD_REG => (0x8004, 0xF00F)
  | .SUB => (0x8005, 0xF00F)
  | .SHR => (0x8006, 0xF00F)
  | .SUBN => (0x8007, 0xF00F)
  | .SHL => (0x800E, 0xF00F)
  | .SNE_REG => (0x9000, 0xF00F)
  | .LD_I => (0xA000, 0xF000)
  | .JP_V0 => (0xB000, 0xF000)
  | .RND => (0xC000, 0xF000)
  | .DRW => (0xD000, 0xF000)
  | .SKP => (0xE09E, 0xF0FF)
  | .SKNP => (0xE0A1, 0xF0FF)
  | .LD_VX_DT => (0xF007, 0xF0FF)
  | .LD_VX_K => (0xF00A, 0xF0FF)
  | .LD_DT => (0xF015, 0xF0FF)
  | .LD_ST => (0xF018, 0xF0FF)
  | .ADD_I => (0xF01E, 0xF0FF)
  | .LD_F => (0xF029, 0xF0FF)
  | .LD_B => (0xF033, 0xF0FF)
  | .LD_MEM_VX => (0xF055, 0xF0FF)
  | .LD_VX_MEM => (0xF065, 0xF0FF)

/-- A word selects a row when `w & mask = match` (30_encoding.md R74). -/
def Mnemonic.selects (r : Mnemonic) (w : Word) : Bool := w &&& r.matchAndMask.2 == r.matchAndMask.1

end Sys2Proof
end

