-- ==== Sys2Proof/Machine/Defaults.lean ====
section
/-! DEFINITION. The defaults of the parameters (00_scope.md R8), which the reset state holds. -/

namespace Sys2Proof.Machine

/-- The default FONT_BYTES: the table of 20_memory.md R54, one line a glyph, digit 0 first, top row first.
PRESUMED (the spec's own mark: general knowledge, G1; log 12), unsafe for a claim about a drawn digit. -/
def standardFontList : List Byte :=
  [0xF0, 0x90, 0x90, 0x90, 0xF0] ++
  [0x20, 0x60, 0x20, 0x20, 0x70] ++
  [0xF0, 0x10, 0xF0, 0x80, 0xF0] ++
  [0xF0, 0x10, 0xF0, 0x10, 0xF0] ++
  [0x90, 0x90, 0xF0, 0x10, 0x10] ++
  [0xF0, 0x80, 0xF0, 0x10, 0xF0] ++
  [0xF0, 0x80, 0xF0, 0x90, 0xF0] ++
  [0xF0, 0x10, 0x20, 0x40, 0x40] ++
  [0xF0, 0x90, 0xF0, 0x90, 0xF0] ++
  [0xF0, 0x90, 0xF0, 0x10, 0xF0] ++
  [0xF0, 0x90, 0xF0, 0x90, 0x90] ++
  [0xE0, 0x90, 0xE0, 0x90, 0xE0] ++
  [0xF0, 0x80, 0x80, 0x80, 0xF0] ++
  [0xE0, 0x90, 0x90, 0x90, 0xE0] ++
  [0xF0, 0x80, 0xF0, 0x80, 0xF0] ++
  [0xF0, 0x80, 0xF0, 0x80, 0x80]

/-- The default FONT_BYTES as 80 bytes. -/
def standardFont : Vector Byte fontSize := ⟨standardFontList.toArray, by decide⟩

/-- The defaults of 00_scope.md R8 (log 12). -/
def defaultConfig : Config where
  fontBase := 0x050
  fontBytes := standardFont
  shiftSource := .vx
  aluVfDest := .resultWins
  decodeDontCare := .strict
  misalignedFetch := .fetch
  keySelect := .lowest

end Sys2Proof.Machine
end

