-- ==== Sys2Proof/Machine/State.lean ====
section
/-! DEFINITION. The machine's state (10_state.md), the ways a step can stop, and the reset state (R42). -/

namespace Sys2Proof.Machine

/-- The error kinds of 60_exceptions.md R200. -/
inductive ErrorKind
  | outOfBounds
  | protectedRegionViolation
  | romTooLarge
  | invalidRegister
  | stackOverflow
  | stackUnderflow
  | unknownOpcode
  | misalignedFetch
  | operandOutOfRange
  deriving DecidableEq, Repr

/-- A fault record (10_state.md R35). Its `code` is a function of the kind (`FaultRecord.code`, log 15). -/
structure FaultRecord where
  /-- the error kind (60_exceptions.md R200) -/
  kind : ErrorKind
  /-- the address the faulting instruction was fetched from, or the failed fetch address -/
  pc : Word
  /-- the word, or none when the fetch itself failed -/
  opcode : Option Word
  /-- the memory address that failed, an exact integer (20_memory.md R50), or none -/
  addr : Option Nat
  /-- the operand that was out of range, or none -/
  value : Option Byte
  deriving DecidableEq, Repr

/-- The sixteen key flags, true for pressed (10_state.md R33). -/
abbrev Keys := Vector Bool 16

/-- The run-state register (10_state.md R34). -/
inductive RunState
  /-- the next step fetches and executes an instruction -/
  | running
  /-- waiting for a key for V[x]; prev is the key state at the last poll -/
  | awaitingKey (x : Fin 16) (prev : Keys)
  /-- the run has ended with an error -/
  | faulted (rec : FaultRecord)
  deriving DecidableEq, Repr

/-- The display buffer: 32 rows of 64 pixels, true for lit; pix(px, py) is `d[py][px]` (10_state.md R32, C1). -/
abbrev Display := Vector (Vector Bool 64) 32

/-- Memory: the bytes that differ from the reset contents, by rising address (20_memory.md R50; log 5). -/
abbrev Memory := List Host.Cell

/-- The model's own record of the boot sequence (70_reset_and_hazards.md R232), by which load_rom is admitted or
refused (20_memory.md R55; log 6, DESIGN CHOICE). -/
inductive LoadPhase
  /-- after a reset, before load_rom and before the first step -/
  | awaitingRom
  /-- after load_rom, before the first step -/
  | romLoaded
  /-- after the first step of the run -/
  | started
  deriving DecidableEq, Repr

/-- The whole state (10_state.md R42), the parameters (00_scope.md R8; log 1), and the model's own two fields
`draws` (log 2) and `loadPhase` (log 6). -/
structure State where
  /-- general registers V0-VF (10_state.md R20) -/
  V : Vector Byte 16
  /-- the address register (10_state.md R24) -/
  I : Word
  /-- the program counter (10_state.md R25) -/
  pc : Word
  /-- the stack pointer: the count of live entries, 0..16 (10_state.md R29, R37) -/
  SP : Fin 17
  /-- the call stack (10_state.md R29) -/
  stack : Vector Word 16
  /-- the delay timer (10_state.md R31) -/
  DT : Byte
  /-- the sound timer (10_state.md R31) -/
  ST : Byte
  /-- the display buffer (10_state.md R32) -/
  pix : Display
  /-- the keypad (10_state.md R33) -/
  key : Keys
  /-- the run state with the fault record (10_state.md R34, R35) -/
  run : RunState
  /-- memory (20_memory.md R50) -/
  mem : Memory
  /-- the parameters of 00_scope.md R8, which nothing writes (log 1) -/
  cfg : Config
  /-- the model's own: how many free values have been taken (log 2) -/
  draws : Nat
  /-- the model's own: where the boot sequence stands (log 6) -/
  loadPhase : LoadPhase
  deriving DecidableEq, Repr

/-- Why an operation stops with no next state. -/
inductive Fault
  /-- Raised by `step` in Faulted(rec): "the model gives it no transition" (30_encoding.md R85). Safe: the core is
  stopped until reset, as the spec says (log 4). -/
  | stopped (rec : FaultRecord)
  /-- Raised by `loadRom` for more than 3584 bytes: the error goes back to the host and no state changes
  (20_memory.md R55). No step raises it. Safe (log 16). -/
  | romTooLarge
  deriving DecidableEq, Repr

/-- Why an operation is refused. -/
inductive Refusal
  /-- Raised by an arm of `exec` whose instruction has no meaning: no arm does. Safe. -/
  | notModelled (mnemonic : String)
  /-- Raised by `loadRom` after a load or after the first step: "the model gives it no meaning"
  (20_memory.md R55, 70_reset_and_hazards.md R234). No step raises it. Safe (log 6). -/
  | loadRomNotAdmitted
  deriving DecidableEq, Repr

/-- The state of 10_state.md R42 under the parameters `c`, with `draws` free values taken. -/
def State.resetWith (c : Config) (draws : Nat) : State where
  V := Vector.replicate 16 0
  I := 0
  pc := 0x200
  SP := 0
  stack := Vector.replicate 16 0
  DT := 0
  ST := 0
  pix := Vector.replicate 32 (Vector.replicate 64 false)
  key := Vector.replicate 16 false
  run := .running
  mem := []
  cfg := c
  draws := draws
  loadPhase := .awaitingRom

/-- Power-on (10_state.md R42, 70_reset_and_hazards.md R231) with the default parameters (00_scope.md R8, log 12). -/
def State.reset : State := State.resetWith defaultConfig 0

end Sys2Proof.Machine
end

