-- ==== Sys2Proof/Machine/Memory.lean ====
section
/-! DEFINITION. Memory as a canonical list of the bytes that differ from the reset contents
(20_memory.md R50, R54, R61; log 5): what an unlisted address reads as, one read and one write of a byte. -/

namespace Sys2Proof.Machine

/-- What an unlisted address reads as: the reset contents, FONT_BYTES at FONT_BASE and 0 elsewhere
(10_state.md R42, 20_memory.md R54). -/
def resetByte (c : Config) (a : Nat) : Byte :=
  if h : c.fontBase.val ≤ a ∧ a < c.fontBase.val + fontSize then
    c.fontBytes[a - c.fontBase.val]'(by omega)
  else 0

/-- The listed byte of an address. -/
def Memory.lookup : Memory → Nat → Option Byte
  | [], _ => none
  | (k, b) :: m, a => if k = a then some b else Memory.lookup m a

/-- The byte at an address. -/
def Memory.read (c : Config) (m : Memory) (a : Nat) : Byte := (Memory.lookup m a).getD (resetByte c a)

/-- The cell of an address in front of the later cells, left out when it holds what the address reads as unlisted. -/
def Memory.cons (c : Config) (a : Nat) (b : Byte) (m : Memory) : Memory :=
  if b = resetByte c a then m else (a, b) :: m

/-- Memory with the byte at an address replaced; it keeps the canonical form (`Memory.write_wf`). -/
def Memory.write (c : Config) : Memory → Nat → Byte → Memory
  | [], a, b => Memory.cons c a b []
  | (k, v) :: m, a, b =>
    if a < k then Memory.cons c a b ((k, v) :: m)
    else if a = k then Memory.cons c a b m
    else (k, v) :: Memory.write c m a b

/-- The canonical form: addresses strictly rising and below 4096, and no entry equal to what the address reads as
unlisted. Equal memories are equal lists. -/
abbrev Memory.wf (c : Config) (m : Memory) : Prop :=
  m.Pairwise (fun p q => p.1 < q.1) ∧ ∀ p ∈ m, p.1 < memSize ∧ p.2 ≠ resetByte c p.1

end Sys2Proof.Machine
end

