-- ==== Sys2Proof/Machine/Ops.lean ====
section
/-! DEFINITION. The named operations over the state: one home for every read and write of a register, MemRead
and MemWrite (20_memory.md R51, R52), the accesses of a multi-byte instruction in order (R58, R59), the stack
(10_state.md R29), the display's primitive (44_display.md R170), a raise (00_scope.md R13, 60_exceptions.md R201),
and beside it the reset, the only way out of Faulted (R204). -/

namespace Sys2Proof.Machine

/-- What a step or another operation answers. -/
abbrev Result := Host.Outcome State Fault Refusal

/-- VF, the flag register V[15] (10_state.md R21). -/
abbrev VF : Reg := 15

/-! ### Registers -/

/-- Reads V[r] (10_state.md R20). -/
def State.readV (s : State) (r : Reg) : Byte := s.V[r.val]

/-- V[r] <- b (10_state.md R20). -/
def State.writeV (s : State) (r : Reg) (b : Byte) : State := { s with V := s.V.set r.val b }

/-- I <- a (10_state.md R24). -/
def State.setI (s : State) (a : Word) : State := { s with I := a }

/-- pc <- a (10_state.md R25). -/
def State.setPc (s : State) (a : Word) : State := { s with pc := a }

/-- DT <- b (10_state.md R31). -/
def State.setDT (s : State) (b : Byte) : State := { s with DT := b }

/-- ST <- b (10_state.md R31). -/
def State.setST (s : State) (b : Byte) : State := { s with ST := b }

/-- Replaces the display buffer (10_state.md R32). -/
def State.setPix (s : State) (d : Display) : State := { s with pix := d }

/-- Replaces the key flags (10_state.md R33). -/
def State.setKeys (s : State) (k : Keys) : State := { s with key := k }

/-- run <- r (10_state.md R34). -/
def State.setRun (s : State) (r : RunState) : State := { s with run := r }

/-- Replaces SP and the stack entries (10_state.md R29). -/
def State.setStack (s : State) (sp : Fin 17) (entries : Vector Word 16) : State :=
  { s with SP := sp, stack := entries }

/-- Replaces memory. -/
def State.setMem (s : State) (m : Memory) : State := { s with mem := m }

/-- One more free value has been taken (log 2). -/
def State.tookDraw (s : State) : State := { s with draws := s.draws + 1 }

/-- Moves the boot sequence on (log 6). -/
def State.setLoadPhase (s : State) (p : LoadPhase) : State := { s with loadPhase := p }

/-! ### Errors -/

/-- What a `raise K(info)` names (00_scope.md R13): the kind, the failing address, the operand out of range. -/
structure Raise where
  kind : ErrorKind
  addr : Option Nat
  value : Option Byte
  deriving DecidableEq, Repr

/-- The 4-bit code of an error kind (60_exceptions.md R200). -/
def ErrorKind.code : ErrorKind → BitVec 4
  | .outOfBounds => 1
  | .protectedRegionViolation => 2
  | .romTooLarge => 3
  | .invalidRegister => 4
  | .stackOverflow => 5
  | .stackUnderflow => 6
  | .unknownOpcode => 7
  | .misalignedFetch => 8
  | .operandOutOfRange => 9

/-- The record's field `code` (10_state.md R35), computed from the kind (log 15). -/
def FaultRecord.code (rec : FaultRecord) : BitVec 4 := rec.kind.code

/-- TAKING AN ERROR, for every instruction and fetch: run <- Faulted(rec), and nothing else (60_exceptions.md R201).
`a` is the address the instruction was fetched from, `w` its word, none for a fetch fault. -/
def State.raiseAt (s : State) (a : Word) (w : Option Word) (r : Raise) : State :=
  s.setRun (.faulted { kind := r.kind, pc := a, opcode := w, addr := r.addr, value := r.value })

/-- The return from Faulted: there is no trap return (60_exceptions.md R205), and `reset()` is the only way out (R204).
It sets everything to the values of 10_state.md R42 (70_reset_and_hazards.md R230). The parameters are the model's
arguments and stay (log 1), and the RNG is not reset (10_state.md R43; log 17). -/
def resetCore (s : State) : State := State.resetWith s.cfg s.draws

/-- The address an executing instruction was fetched from: pc holds it plus 2 (10_state.md R25; log 18). -/
def State.fetchedFrom (s : State) : Word := s.pc - 2

/-- A raise by an executing instruction: the record has pc = A and opcode = w (30_encoding.md R83). -/
def raise (i : Instr) (r : Raise) (s : State) : Result :=
  .next (s.raiseAt s.fetchedFrom (some (encode i)) r)

/-- Runs the rest of a rule, or raises what an operand check raised (00_scope.md R13). -/
def orRaise {α : Type} (i : Instr) (s : State) (v : Except Raise α) (rest : α → Result) : Result :=
  match v with
  | .ok a => rest a
  | .error r => raise i r s

/-! ### Memory accesses -/

/-- OutOfBounds(addr = a). -/
def outOfBoundsAt (a : Nat) : Raise := { kind := .outOfBounds, addr := some a, value := none }

/-- ProtectedRegionViolation(addr = a). -/
def protectedAt (a : Nat) : Raise := { kind := .protectedRegionViolation, addr := some a, value := none }

/-- The byte at an address, as the state's memory holds it. -/
def State.byteAt (s : State) (a : Nat) : Byte := Memory.read s.cfg s.mem a

/-- The byte at an address is `b`. -/
def State.putByte (s : State) (a : Nat) (b : Byte) : State := s.setMem (Memory.write s.cfg s.mem a b)

/-- MemRead(a, 1) (20_memory.md R51). -/
def State.memRead (s : State) (a : Nat) : Except Raise Byte :=
  if a ≥ memSize then .error (outOfBoundsAt a) else .ok (s.byteAt a)

/-- MemWrite(a, 1, b), the protection check first (20_memory.md R52). -/
def State.memWrite (s : State) (a : Nat) (b : Byte) : Except Raise State :=
  if a < protectedLimit then .error (protectedAt a)
  else if a ≥ memSize then .error (outOfBoundsAt a)
  else .ok (s.putByte a b)

/-- Writes bytes one at a time at ascending addresses. The first that raises ends it, and the earlier ones stay
(20_memory.md R58, R59). -/
def State.storeBytes (s : State) (a : Nat) : List Byte → State × Option Raise
  | [] => (s, none)
  | b :: bs =>
    match s.memWrite a b with
    | .error r => (s, some r)
    | .ok s' => s'.storeBytes (a + 1) bs

/-- Loads registers one at a time from ascending addresses. The first read that raises ends it, and the earlier
registers stay loaded (20_memory.md R58, R59). -/
def State.loadRegs (s : State) (a : Nat) : List Reg → State × Option Raise
  | [] => (s, none)
  | r :: rs =>
    match s.memRead a with
    | .error e => (s, some e)
    | .ok b => (s.writeV r b).loadRegs (a + 1) rs

/-- The end of a rule that made accesses: its next state, or the raise of the access that failed, with the earlier
effects kept (60_exceptions.md R202). -/
def finish (i : Instr) : State × Option Raise → Result
  | (s, none) => .next s
  | (s, some r) => raise i r s

/-! ### The stack (10_state.md R29) -/

/-- StackOverflow and StackUnderflow record no more than kind, pc and opcode (60_exceptions.md R200; log 11). -/
def bareRaise (k : ErrorKind) : Raise := { kind := k, addr := none, value := none }

/-- push(a): the check comes before the write. -/
def State.push (s : State) (a : Word) : Except Raise State :=
  if h : s.SP.val < 16 then .ok (s.setStack ⟨s.SP.val + 1, by omega⟩ (s.stack.set s.SP.val a))
  else .error (bareRaise .stackOverflow)

/-- pop(): the popped entry, and the state with SP one less; the entry keeps its value (R30). -/
def State.pop (s : State) : Except Raise (Word × State) :=
  if h : s.SP.val = 0 then .error (bareRaise .stackUnderflow)
  else .ok (s.stack[s.SP.val - 1], s.setStack ⟨s.SP.val - 1, by omega⟩ s.stack)

/-! ### The program counter -/

/-- skip(): pc <- (pc + 2) mod 65536 (41_control_flow.md R100). -/
def State.skip (s : State) : State := s.setPc (s.pc + 2)

/-- Skips when the condition holds (41_control_flow.md R100). -/
def State.skipIf (s : State) (c : Bool) : State := if c then s.skip else s

/-! ### The display (44_display.md R170, R171, R173) -/

/-- The pixel in column `px` and row `py` (10_state.md R32). -/
def pixelAt (d : Display) (px : Fin 64) (py : Fin 32) : Bool := d[py.val][px.val]

/-- toggle_pixel: whether the pixel was set, and the display with it flipped (44_display.md R170). -/
def togglePixel (d : Display) (px : Fin 64) (py : Fin 32) : Bool × Display :=
  let old := pixelAt d px py
  (old, d.set py.val (d[py.val].set px.val (!old)))

/-- Column `c` of a sprite byte: its bit 7 - c, if set, toggles pixel ((px0 + c) mod 64, py mod 32), and a pixel that was
set is a collision (44_display.md R171, R173; the bit order is D14's choice, log 14). -/
def drawColumn (b : Byte) (px0 py : Nat) (acc : Bool × Display) (c : Nat) : Bool × Display :=
  if b.getLsbD (7 - c) then
    let t := togglePixel acc.2 ⟨(px0 + c) % 64, Nat.mod_lt _ (by decide)⟩ ⟨py % 32, Nat.mod_lt _ (by decide)⟩
    (acc.1 || t.1, t.2)
  else acc

/-- One sprite row, its eight columns from the left (44_display.md R173). -/
def drawRow (b : Byte) (px0 py : Nat) (acc : Bool × Display) : Bool × Display :=
  [0, 1, 2, 3, 4, 5, 6, 7].foldl (drawColumn b px0 py) acc

/-- `count` sprite rows from row `r` on, in order. A read that raises ends it, with the earlier rows drawn
(44_display.md R173, 20_memory.md R59). -/
def drawRows (s : State) (px0 py0 : Nat) : (count r : Nat) → Bool × Display → (Bool × Display) × Option Raise
  | 0, _, acc => (acc, none)
  | k + 1, r, acc =>
    match s.memRead (s.I.toNat + r) with
    | .error e => (acc, some e)
    | .ok b => drawRows s px0 py0 k (r + 1) (drawRow b px0 (py0 + r) acc)

end Sys2Proof.Machine
end

