-- ==== Sys2Proof/Machine/Operands.lean ====
section
/-! DEFINITION. The operand forms: immediates (30_encoding.md R72), the register that a shift takes
(42_alu.md R132, R134), the checked digit of a register (45_keypad_timers.md R180, 43_index_memory.md R152), the
effective address (R156), the bytes that a store moves and the registers that a load fills. -/

namespace Sys2Proof.Machine

/-- nnn as a 16-bit value: zext_16(nnn) (30_encoding.md R72). -/
def addrOperand (nnn : Addr12) : Word := nnn.setWidth 16

/-- A register's value as a 16-bit value, for the 16-bit sums of Bnnn and Fx1E (42_alu.md R136). -/
def State.wideV (s : State) (r : Reg) : Word := (s.readV r).setWidth 16

/-- The value that 8xy6 and 8xyE shift: SHIFT_SOURCE (42_alu.md R132, R134). -/
def State.shiftOperand (s : State) (x y : Reg) : Byte :=
  match s.cfg.shiftSource with
  | .vx => s.readV x
  | .vy => s.readV y

/-- A register value that must be 0..15, else OperandOutOfRange(value) (60_exceptions.md R200, code 9). -/
def digitOperand (v : Byte) : Except Raise (Fin 16) :=
  if h : v.toNat > 15 then .error { kind := .operandOutOfRange, addr := none, value := some v }
  else .ok ⟨v.toNat, by omega⟩

/-- key_operand(v) (45_keypad_timers.md R180). -/
def keyOperand (v : Byte) : Except Raise (Fin 16) := digitOperand v

/-- The hexadecimal digit of Fx29 (43_index_memory.md R152). -/
def fontOperand (v : Byte) : Except Raise (Fin 16) := digitOperand v

/-- FONT_BASE + 5 * digit (43_index_memory.md R152). -/
def glyphAddress (c : Config) (d : Fin 16) : Word := BitVec.ofNat 16 (c.fontBase.val + 5 * d.val)

/-- The effective address I + offset, an exact integer (43_index_memory.md R156, 20_memory.md R50). -/
def State.effAddr (s : State) (offset : Nat) : Nat := s.I.toNat + offset

/-- The decimal digits of a byte: hundreds, tens, ones (43_index_memory.md R153). -/
def bcdDigits (v : Byte) : List Byte :=
  [BitVec.ofNat 8 (v.toNat / 100), BitVec.ofNat 8 (v.toNat / 10 % 10), BitVec.ofNat 8 (v.toNat % 10)]

/-- All registers, in order. -/
def allRegs : List Reg := [0, 1, 2, 3, 4, 5, 6, 7, 8, 9, 10, 11, 12, 13, 14, 15]

/-- V0..Vx, x inclusive (30_encoding.md R73). -/
def regsUpTo (x : Reg) : List Reg := allRegs.take (x.val + 1)

/-- The bytes of V0..Vx, in order (43_index_memory.md R154). -/
def State.bytesUpTo (s : State) (x : Reg) : List Byte := (regsUpTo x).map s.readV

end Sys2Proof.Machine
end

