-- ==== Sys2Proof/Machine/Flags.lean ====
section
/-! DEFINITION. The ALU functions with their flags (42_alu.md R120, R121) and the write back of a result and a
flag (R123). -/

namespace Sys2Proof.Machine

/-- A flag as the byte that VF holds: 1 when it holds and 0 otherwise (42_alu.md R120). -/
def flagByte (f : Bool) : Byte := if f then 1 else 0

/-- alu_add: the sum modulo 256, and whether the widened sum exceeds 255 (42_alu.md R120). -/
def aluAdd (a b : Byte) : Byte × Bool := (a + b, decide (a.toNat + b.toNat > 255))

/-- alu_sub: the difference modulo 256, and the strict [a > b] (42_alu.md R120, R121). -/
def aluSub (a b : Byte) : Byte × Bool := (a - b, decide (a.toNat > b.toNat))

/-- alu_or (42_alu.md R120). -/
def aluOr (a b : Byte) : Byte := a ||| b

/-- alu_and (42_alu.md R120). -/
def aluAnd (a b : Byte) : Byte := a &&& b

/-- alu_xor (42_alu.md R120). -/
def aluXor (a b : Byte) : Byte := a ^^^ b

/-- alu_shr: bit 7 becomes 0, the flag is bit 0 (42_alu.md R120). -/
def aluShr (a : Byte) : Byte × Bool := (a >>> 1, a.getLsbD 0)

/-- alu_shl: bit 0 becomes 0, the flag is bit 7 (42_alu.md R120). -/
def aluShl (a : Byte) : Byte × Bool := (a <<< 1, a.getLsbD 7)

/-- alu_bnot, which no instruction uses (42_alu.md R120, R122, C6). -/
def aluBnot (a : Byte) : Byte := a ^^^ 0xFF

/-- Writes back a result and a flag in the order of ALU_VF_DEST; the three differ only when x = F (42_alu.md R123).
Under `any` with x = F, VF is a free value (log 3). -/
def State.writeBack (s : State) (x : Reg) (rf : Byte × Bool) : State :=
  match s.cfg.aluVfDest with
  | .resultWins => (s.writeV VF (flagByte rf.2)).writeV x rf.1
  | .flagWins => (s.writeV x rf.1).writeV VF (flagByte rf.2)
  | .any =>
    if x = VF then (s.writeV VF (Config.anyVF s.draws)).tookDraw
    else (s.writeV VF (flagByte rf.2)).writeV x rf.1

end Sys2Proof.Machine
end

