-- ==== Sys2Proof/Machine/Alu.lean ====
section
/-! DEFINITION. ALU and register instructions (42_alu.md). Operands are read before any write (R123). -/

namespace Sys2Proof.Machine

/-- LD Vx, kk (R124). -/
def execLdImm (x : Reg) (kk : Byte) (s : State) : Result := .next (s.writeV x kk)

/-- ADD Vx, kk (R125): modulo 256, VF not written. -/
def execAddImm (x : Reg) (kk : Byte) (s : State) : Result := .next (s.writeV x (aluAdd (s.readV x) kk).1)

/-- LD Vx, Vy (R126). -/
def execLdReg (x y : Reg) (s : State) : Result := .next (s.writeV x (s.readV y))

/-- OR Vx, Vy (R127): VF not written. -/
def execOrReg (x y : Reg) (s : State) : Result := .next (s.writeV x (aluOr (s.readV x) (s.readV y)))

/-- AND Vx, Vy (R128): VF not written. -/
def execAndReg (x y : Reg) (s : State) : Result := .next (s.writeV x (aluAnd (s.readV x) (s.readV y)))

/-- XOR Vx, Vy (R129): VF not written. -/
def execXorReg (x y : Reg) (s : State) : Result := .next (s.writeV x (aluXor (s.readV x) (s.readV y)))

/-- ADD Vx, Vy (R130): VF is the carry. -/
def execAddReg (x y : Reg) (s : State) : Result := .next (s.writeBack x (aluAdd (s.readV x) (s.readV y)))

/-- SUB Vx, Vy (R131): Vx - Vy, VF is [Vx > Vy]. -/
def execSub (x y : Reg) (s : State) : Result := .next (s.writeBack x (aluSub (s.readV x) (s.readV y)))

/-- SHR Vx, Vy (R132): VF is the bit shifted out. -/
def execShr (x y : Reg) (s : State) : Result := .next (s.writeBack x (aluShr (s.shiftOperand x y)))

/-- SUBN Vx, Vy (R133): Vy - Vx, VF is [Vy > Vx]. -/
def execSubn (x y : Reg) (s : State) : Result := .next (s.writeBack x (aluSub (s.readV y) (s.readV x)))

/-- SHL Vx, Vy (R134): VF is bit 7 of the source. -/
def execShl (x y : Reg) (s : State) : Result := .next (s.writeBack x (aluShl (s.shiftOperand x y)))

/-- RND Vx, kk (R135): one draw of the RNG, a free value (log 2), masked by kk. -/
def execRnd (x : Reg) (kk : Byte) (s : State) : Result :=
  .next ((s.writeV x (aluAnd (Config.rngByte s.draws) kk)).tookDraw)

end Sys2Proof.Machine
end

