-- ==== Sys2Proof/Machine/ControlFlow.lean ====
section
/-! DEFINITION. Control flow: return, jumps, call, skips (41_control_flow.md). While a meaning runs, pc holds A + 2
(10_state.md R25). -/

namespace Sys2Proof.Machine

/-- RET (R101): pops pc; StackUnderflow when the stack is empty, with SP and pc as they were. -/
def execRet (d : Nibble) (s : State) : Result :=
  orRaise (.ret d) s s.pop fun (a, s') => .next (s'.setPc a)

/-- JP nnn (R102): pc <- nnn. -/
def execJp (nnn : Addr12) (s : State) : Result := .next (s.setPc (addrOperand nnn))

/-- CALL nnn (R103): pushes pc (A + 2), then pc <- nnn; StackOverflow when 16 entries are live. -/
def execCall (nnn : Addr12) (s : State) : Result :=
  orRaise (.call nnn) s (s.push s.pc) fun s' => .next (s'.setPc (addrOperand nnn))

/-- SE Vx, kk (R104). -/
def execSeImm (x : Reg) (kk : Byte) (s : State) : Result := .next (s.skipIf (s.readV x == kk))

/-- SNE Vx, kk (R105). -/
def execSneImm (x : Reg) (kk : Byte) (s : State) : Result := .next (s.skipIf (s.readV x != kk))

/-- SE Vx, Vy (R106). The ignored digit plays no part. -/
def execSeReg (x y : Reg) (_d : Nibble) (s : State) : Result := .next (s.skipIf (s.readV x == s.readV y))

/-- SNE Vx, Vy (R107). The ignored digit plays no part. -/
def execSneReg (x y : Reg) (_d : Nibble) (s : State) : Result := .next (s.skipIf (s.readV x != s.readV y))

/-- JP V0, nnn (R108): pc <- nnn + V[0], not reduced to 12 bits. -/
def execJpV0 (nnn : Addr12) (s : State) : Result := .next (s.setPc (addrOperand nnn + s.wideV 0))

end Sys2Proof.Machine
end

