-- ==== Sys2Proof/Machine/Display.lean ====
section
/-! DEFINITION. Display instructions (44_display.md). -/

namespace Sys2Proof.Machine

/-- A display with every pixel off. -/
def blankDisplay : Display := Vector.replicate 32 (Vector.replicate 64 false)

/-- CLS (R172): every pixel off, VF not written. The ignored digit plays no part. -/
def execCls (_d : Nibble) (s : State) : Result := .next (s.setPix blankDisplay)

/-- DRW Vx, Vy, n (R173): the coordinates are read first, the rows are drawn in order, and VF is written last, to
whether a lit pixel was turned off. A read that raises keeps the rows before it and leaves VF. -/
def execDrw (x y : Reg) (n : Nibble) (s : State) : Result :=
  let out := drawRows s (s.readV x).toNat (s.readV y).toNat n.val 0 (false, s.pix)
  let drawn := s.setPix out.1.2
  match out.2 with
  | none => .next (drawn.writeV VF (flagByte out.1.1))
  | some r => raise (.drw x y n) r drawn

end Sys2Proof.Machine
end

