-- ==== Sys2Proof/Machine/IndexMemory.lean ====
section
/-! DEFINITION. The address register, loads and stores (43_index_memory.md). I is never changed by an access (R156). -/

namespace Sys2Proof.Machine

/-- LD I, nnn (R150): I <- zext_16(nnn). -/
def execLdI (nnn : Addr12) (s : State) : Result := .next (s.setI (addrOperand nnn))

/-- ADD I, Vx (R151): modulo 65536, VF not written. -/
def execAddI (x : Reg) (s : State) : Result := .next (s.setI (s.I + s.wideV x))

/-- LD F, Vx (R152): I <- FONT_BASE + 5 * Vx; OperandOutOfRange when Vx > 15. -/
def execLdF (x : Reg) (s : State) : Result :=
  orRaise (.ldF x) s (fontOperand (s.readV x)) fun d => .next (s.setI (glyphAddress s.cfg d))

/-- LD B, Vx (R153): the decimal digits at I, I + 1, I + 2. -/
def execLdB (x : Reg) (s : State) : Result := finish (.ldB x) (s.storeBytes (s.effAddr 0) (bcdDigits (s.readV x)))

/-- LD [I], Vx (R154): V0..Vx at I, I + 1, ... -/
def execLdMemVx (x : Reg) (s : State) : Result := finish (.ldMemVx x) (s.storeBytes (s.effAddr 0) (s.bytesUpTo x))

/-- LD Vx, [I] (R155): V0..Vx from I, I + 1, ... -/
def execLdVxMem (x : Reg) (s : State) : Result := finish (.ldVxMem x) (s.loadRegs (s.effAddr 0) (regsUpTo x))

end Sys2Proof.Machine
end

