-- ==== Sys2Proof/Machine/KeypadTimers.lean ====
section
/-! DEFINITION. Keypad and timer instructions and the wait step (45_keypad_timers.md), and the operations of the
timer clock and of the input collaborator (60_exceptions.md R209, R213). -/

namespace Sys2Proof.Machine

/-- Whether key `k` is pressed (10_state.md R33). -/
def State.pressed (s : State) (k : Fin 16) : Bool := s.key[k.val]

/-- SKP Vx (R181): skips if the key of Vx is pressed; OperandOutOfRange when Vx > 15. -/
def execSkp (x : Reg) (s : State) : Result :=
  orRaise (.skp x) s (keyOperand (s.readV x)) fun k => .next (s.skipIf (s.pressed k))

/-- SKNP Vx (R182): skips if the key of Vx is not pressed. -/
def execSknp (x : Reg) (s : State) : Result :=
  orRaise (.sknp x) s (keyOperand (s.readV x)) fun k => .next (s.skipIf (!s.pressed k))

/-- LD Vx, DT (R183). -/
def execLdVxDt (x : Reg) (s : State) : Result := .next (s.writeV x s.DT)

/-- LD Vx, K (R184): starts the wait with a snapshot of the keys; Vx is not written yet and pc stays. -/
def execLdVxK (x : Reg) (s : State) : Result := .next (s.setRun (.awaitingKey x s.key))

/-- LD DT, Vx (R186). -/
def execLdDt (x : Reg) (s : State) : Result := .next (s.setDT (s.readV x))

/-- LD ST, Vx (R187). -/
def execLdSt (x : Reg) (s : State) : Result := .next (s.setST (s.readV x))

/-! ### The wait step (R185) -/

/-- The keys pressed now that were not at the last poll, in rising order. -/
def freshKeys (now prev : Keys) : List (Fin 16) :=
  ([0, 1, 2, 3, 4, 5, 6, 7, 8, 9, 10, 11, 12, 13, 14, 15] : List (Fin 16)).filter
    fun k => now[k.val] && !prev[k.val]

/-- The wait step of AwaitingKey(x, prev): polls again, or stores a fresh key in Vx and returns to Running. Under
KEY_SELECT = any the key is a free choice among the fresh ones (log 3). Nothing is fetched and pc does not move. -/
def pollKey (x : Reg) (prev : Keys) (s : State) : State :=
  match freshKeys s.key prev with
  | [] => s.setRun (.awaitingKey x s.key)
  | k :: ks =>
    match s.cfg.keySelect with
    | .lowest => (s.writeV x (BitVec.ofNat 8 k.val)).setRun .running
    | .any =>
      let chosen := (k :: ks).getD (Config.anyKey s.draws % (ks.length + 1)) k
      ((s.writeV x (BitVec.ofNat 8 chosen.val)).setRun .running).tookDraw

/-! ### The other agents -/

/-- A timer one tick later, saturating at 0 (60_exceptions.md R209). -/
def tickDown (b : Byte) : Byte := if b.toNat > 0 then b - 1 else b

/-- tick_timers() (60_exceptions.md R209), in any run state. -/
def tickTimers (s : State) : State := (s.setDT (tickDown s.DT)).setST (tickDown s.ST)

/-- set_pressed(k, b) (60_exceptions.md R213), in any run state. -/
def setPressed (k : Fin 16) (b : Bool) (s : State) : State := s.setKeys (s.key.set k.val b)

end Sys2Proof.Machine
end

