-- ==== Sys2Proof/Machine/Fetch.lean ====
section
/-! DEFINITION. The fetch of a step, and the raises of fetch and decode (30_encoding.md R80, R82, R75). -/

namespace Sys2Proof.Machine

/-- Whether a fetch at address `a` raises MisalignedFetch (30_encoding.md R82). -/
def misaligned (c : Config) (a : Nat) : Bool := c.misalignedFetch == .fault && a % 2 == 1

/-- The word at pc: the alignment check, then the two reads, the high byte first (30_encoding.md R80). -/
def fetch (s : State) : Except Raise Word :=
  if misaligned s.cfg s.pc.toNat then .error (bareRaise .misalignedFetch)
  else
    match s.memRead s.pc.toNat with
    | .error r => .error r
    | .ok hi =>
      match s.memRead (s.pc.toNat + 1) with
      | .error r => .error r
      | .ok lo => .ok (wordOfBytes hi lo)

/-- A fetch fault: pc stays at A and the record has no opcode (30_encoding.md R80, 60_exceptions.md R202). -/
def fetchFault (r : Raise) (s : State) : State := s.raiseAt s.pc none r

/-- pc <- (A + 2) mod 65536 (30_encoding.md R80, 10_state.md R26). -/
def advance (s : State) : State := s.setPc (s.pc + 2)

/-- UnknownOpcode(pc = A, opcode = w), after the advance (30_encoding.md R75, R80). -/
def unknownOpcode (a w : Word) (s : State) : State := s.raiseAt a (some w) (bareRaise .unknownOpcode)

/-- Whether the bytes at pc can be fetched. -/
def State.fetchable (s : State) : Bool := s.pc.toNat + 1 < memSize && !misaligned s.cfg s.pc.toNat

/-- Puts a word where the next step fetches it, and makes the next step fetch: Running, and pc at 0x200 when nothing
can be fetched at pc (log 8). -/
def State.placeWord (s : State) (w : Word) : State :=
  let t := (if s.fetchable then s else s.setPc 0x200).setRun .running
  (t.putByte t.pc.toNat (hiByte w)).putByte (t.pc.toNat + 1) (loByte w)

end Sys2Proof.Machine
end

