-- ==== Sys2Proof/Machine/Step.lean ====
section
/-! DEFINITION. The step (30_encoding.md R80, R84, R85), and the placing of a word for its next fetch. -/

namespace Sys2Proof.Machine

/-- Decodes and executes the word `w` fetched at `a`, in the state whose pc is past it (30_encoding.md R80). -/
def dispatchWord (a w : Word) (s : State) : Host.Outcome State Fault Refusal :=
  match decode s.cfg.decodeDontCare w with
  | .ok i => exec i s
  | .error _ => .next (unknownOpcode a w s)

/-- A step in Running: fetch, advance pc, decode, execute (30_encoding.md R80). -/
def stepRunning (s : State) : Host.Outcome State Fault Refusal :=
  match fetch s with
  | .error r => .next (fetchFault r s)
  | .ok w => dispatchWord s.pc w (advance s)

/-- One `step()`: an instruction in Running (R80), a poll in AwaitingKey (R84), no transition in Faulted (R85).
Either of the first two leaves the boot sequence's load window (20_memory.md R55; log 6). -/
def step (s : State) : Host.Outcome State Fault Refusal :=
  match s.run with
  | .running => stepRunning (s.setLoadPhase .started)
  | .awaitingKey x prev => .next (pollKey x prev (s.setLoadPhase .started))
  | .faulted rec => .fault (.stopped rec)

/-- `s` with the table word `w` of `nbits` bits stored where the next step fetches it (log 8). -/
def State.withFetchWord (s : State) (nbits w : Nat) : State := s.placeWord (BitVec.ofNat 16 (w % 2 ^ nbits))

end Sys2Proof.Machine
end

