-- ==== Sys2Proof/Machine/HostInterface.lean ====
section
/-! DEFINITION. The block's interface (10_state.md R38-R41): load_rom (20_memory.md R55), the operations of the four
agents as data, any interleaving of them as a list, and the read accessors (R40). -/

namespace Sys2Proof.Machine

/-- The ROM image's bytes, verbatim, from an address on (20_memory.md R55). -/
def putBytes (a : Nat) : List Byte → State → State
  | [], s => s
  | b :: bs, s => putBytes (a + 1) bs (s.putByte a b)

/-- load_rom(bytes) (20_memory.md R55): refused unless the core was reset and neither loaded nor stepped since
(70_reset_and_hazards.md R232, R234; log 6). RomTooLarge goes back to the host, with no state changed (log 16). -/
def loadRom (bytes : List Byte) (s : State) : Result :=
  match s.loadPhase with
  | .awaitingRom =>
    if bytes.length > romMax then .fault .romTooLarge
    else .next ((putBytes romBase bytes s).setLoadPhase .romLoaded)
  | .romLoaded => .refused .loadRomNotAdmitted
  | .started => .refused .loadRomNotAdmitted

/-- The operations of the block (10_state.md R39). The RNG byte is no operation: it is a free value (log 2). -/
inductive Operation
  /-- the step driver's `step()` -/
  | step
  /-- the timer clock's `tick_timers()` -/
  | tickTimers
  /-- the input collaborator's `set_pressed(k, b)` -/
  | setPressed (k : Fin 16) (b : Bool)
  /-- the host's `reset()` -/
  | reset
  /-- the host's `load_rom(bytes)` -/
  | loadRom (bytes : List Byte)
  deriving DecidableEq, Repr

/-- One atomic transaction (10_state.md R41). -/
def perform (o : Operation) (s : State) : Result :=
  match o with
  | .step => step s
  | .tickTimers => .next (tickTimers s)
  | .setPressed k b => .next (setPressed k b s)
  | .reset => .next (resetCore s)
  | .loadRom bytes => loadRom bytes s

/-- Transactions one after another, in any order the agents choose (10_state.md R41). One that has no next state leaves the
state as it was, for the others go on: ticks, keys and reset act on a stopped core (60_exceptions.md R204), and a failed
or refused load changes no state (20_memory.md R55; log 7). -/
def performAll : List Operation → State → State
  | [], s => s
  | o :: os, s =>
    match perform o s with
    | .next t => performAll os t
    | .fault _ => performAll os s
    | .refused _ => performAll os s

/-- display(): the snapshot of all 2048 pixels (10_state.md R40). -/
def State.displayValue (s : State) : Display := s.pix

/-- sound_value(): ST (10_state.md R40). -/
def State.soundValue (s : State) : Byte := s.ST

/-- delay_value(): DT (10_state.md R40). -/
def State.delayValue (s : State) : Byte := s.DT

/-- status(): run, with the fault record when Faulted (10_state.md R40). -/
def State.status (s : State) : RunState := s.run

end Sys2Proof.Machine
end

