-- ==== Sys2Proof/Safety.lean ====
section
/-! DEFINITION. What a safe run is, and the terms that statements use: the ends of a run (70_reset_and_hazards.md R240),
the invariant of the machine, the tables of the spec that speak of all instructions, and what one instruction leaves. -/

namespace Sys2Proof.Machine

/-! ### Ends of a run -/

/-- A normal end: Running, at a jump to itself (70_reset_and_hazards.md R240). -/
def NormalEnd (s : State) : Prop :=
  s.run = .running ∧ ∃ w, fetch s = .ok w ∧ w.toNat = 0x1000 + s.pc.toNat

/-- An error end: Faulted (70_reset_and_hazards.md R240). -/
def ErrorEnd (s : State) : Prop := ∃ rec, s.run = .faulted rec

/-! ### Words and raises -/

/-- The word numbered `w` stands for `i` under either DECODE_DONT_CARE. -/
def ReadsAs (w : Nat) (i : Instr) : Prop := ∀ m, decode m (BitVec.ofNat 16 w) = .ok i

/-- `s` after `i` raises in it: run holds the record, and nothing else changes (60_exceptions.md R201, 30_encoding.md R83). -/
def faultedBy (i : Instr) (kind : ErrorKind) (addr : Option Nat) (value : Option Byte) (s : State) : State :=
  { s with run := .faulted { kind := kind, pc := s.pc - 2, opcode := some (encode i), addr := addr, value := value } }

/-! ### What one instruction leaves -/

/-- From `s` to `t` no register but V[x] changes, and nothing but registers does. -/
def OnlyWritesV (x : Reg) (s t : State) : Prop :=
  t = { s with V := t.V } ∧ ∀ q, q ≠ x → t.readV q = s.readV q

/-- From `s` to `t` only `n` bytes of memory from address `a` on may change. -/
def OnlyStores (a n : Nat) (s t : State) : Prop :=
  t = { s with mem := t.mem } ∧ ∀ b, (b < a ∨ a + n ≤ b) → t.byteAt b = s.byteAt b

/-- From `s` to `t` the result `r` and the flag `f` are written back to V[x] and VF by 42_alu.md R123: the three policies
differ only when x = F, and under `any` VF is then the free value (log 3), which nothing is known of. -/
def WritesBack (x : Reg) (r f : Nat) (s t : State) : Prop :=
  (∀ q, q ≠ x → q ≠ VF → t.readV q = s.readV q) ∧
  (x ≠ VF → (t.readV x).toNat = r ∧ (t.readV VF).toNat = f ∧ t = { s with V := t.V }) ∧
  (x = VF → s.cfg.aluVfDest = .resultWins → (t.readV VF).toNat = r ∧ t = { s with V := t.V }) ∧
  (x = VF → s.cfg.aluVfDest = .flagWins → (t.readV VF).toNat = f ∧ t = { s with V := t.V }) ∧
  (x = VF → s.cfg.aluVfDest = .any →
    t.readV VF = Config.anyVF s.draws ∧ t = { s with V := t.V, draws := s.draws + 1 })

/-- A set bit of the sprite of `n` rows at I covers pixel (X, Y) when it is drawn at (px0, py0): row r and column c of
44_display.md R173, with the bit order of R171. -/
def Covers (s : State) (px0 py0 n : Nat) (X : Fin 64) (Y : Fin 32) : Prop :=
  ∃ r c : Nat, r < n ∧ c < 8 ∧ X.val = (px0 + c) % 64 ∧ Y.val = (py0 + r) % 32 ∧
    (s.byteAt (s.I.toNat + r)).getLsbD (7 - c) = true

/-- The display `d` is that of `s` with the covered pixels flipped. -/
def FlipsCovered (s : State) (px0 py0 n : Nat) (d : Display) : Prop :=
  ∀ X Y, (Covers s px0 py0 n X Y → pixelAt d X Y = !pixelAt s.pix X Y) ∧
    (¬ Covers s px0 py0 n X Y → pixelAt d X Y = pixelAt s.pix X Y)

/-- Key `k` is newly pressed: now, and not at the last poll (45_keypad_timers.md R185). -/
def Fresh (now prev : Keys) (k : Fin 16) : Prop := now[k.val] = true ∧ prev[k.val] = false

/-- Two states that differ at most in stack entries at or above SP (10_state.md R30). -/
def SameLiveStack (s t : State) : Prop :=
  t = { s with stack := t.stack } ∧ ∀ j (h : j < 16), j < s.SP.val → t.stack[j] = s.stack[j]

/-! ### The spec's tables over all instructions -/

/-- The registers that an instruction may write (10_state.md R22). -/
def mayWriteV : Instr → Reg → Bool
  | .ldImm x _, q | .addImm x _, q | .ldReg x _, q | .orReg x _, q | .andReg x _, q | .xorReg x _, q
  | .rnd x _, q | .ldVxDt x, q => q == x
  | .addReg x _, q | .sub x _, q | .shr x _, q | .subn x _, q | .shl x _, q => q == x || q == VF
  | .drw _ _ _, q => q == VF
  | .ldVxMem x, q => decide (q ≤ x)
  | .cls _, _ | .ret _, _ | .jp _, _ | .call _, _ | .seImm _ _, _ | .sneImm _ _, _ | .seReg _ _ _, _
  | .sneReg _ _ _, _ | .ldI _, _ | .jpV0 _, _ | .skp _, _ | .sknp _, _ | .ldVxK _, _ | .ldDt _, _
  | .ldSt _, _ | .addI _, _ | .ldF _, _ | .ldB _, _ | .ldMemVx _, _ => false

/-- The error kinds that an instruction may raise once decoded (60_exceptions.md R200). -/
def mayRaise : Mnemonic → List ErrorKind
  | .DRW => [.outOfBounds]
  | .LD_B => [.outOfBounds, .protectedRegionViolation]
  | .LD_MEM_VX => [.outOfBounds, .protectedRegionViolation]
  | .LD_VX_MEM => [.outOfBounds]
  | .CALL => [.stackOverflow]
  | .RET => [.stackUnderflow]
  | .SKP => [.operandOutOfRange]
  | .SKNP => [.operandOutOfRange]
  | .LD_F => [.operandOutOfRange]
  | .CLS | .JP | .SE_IMM | .SNE_IMM | .SE_REG | .LD_IMM | .ADD_IMM | .LD_REG | .OR | .AND | .XOR | .ADD_REG
  | .SUB | .SHR | .SUBN | .SHL | .SNE_REG | .LD_I | .JP_V0 | .RND | .LD_VX_DT | .LD_VX_K | .LD_DT | .LD_ST
  | .ADD_I => []

/-- Whether the instruction's skip is taken in `s` (10_state.md R26); an operand out of range takes none. -/
def skipTaken (s : State) : Instr → Bool
  | .seImm x kk => s.readV x == kk
  | .sneImm x kk => s.readV x != kk
  | .seReg x y _ => s.readV x == s.readV y
  | .sneReg x y _ => s.readV x != s.readV y
  | .skp x => match keyOperand (s.readV x) with | .ok k => s.pressed k | .error _ => false
  | .sknp x => match keyOperand (s.readV x) with | .ok k => !s.pressed k | .error _ => false
  | _ => false

/-- pc after a step that does not end Faulted, `A` being the fetch address and `s` the state before the step
(10_state.md R26). -/
def pcAfter (A : Nat) (s : State) : Instr → Nat
  | .jp nnn => nnn.toNat
  | .call nnn => nnn.toNat
  | .jpV0 nnn => nnn.toNat + (s.readV 0).toNat
  | .ret _ => if h : s.SP.val = 0 then A + 2 else (s.stack[s.SP.val - 1]).toNat
  | i => if skipTaken s i then A + 4 else A + 2

/-! ### The invariant -/

/-- The fields that a record of each kind holds, and the kinds that a step can raise (10_state.md R35, 60_exceptions.md R200). -/
def LegalRecord (rec : FaultRecord) : Prop :=
  match rec.kind with
  | .outOfBounds => (∃ a, rec.addr = some a ∧ memSize ≤ a) ∧ rec.value = none
  | .protectedRegionViolation =>
    (∃ a, rec.addr = some a ∧ a < protectedLimit) ∧ rec.value = none ∧ rec.opcode ≠ none
  | .stackOverflow => rec.addr = none ∧ rec.value = none ∧ rec.opcode ≠ none
  | .stackUnderflow => rec.addr = none ∧ rec.value = none ∧ rec.opcode ≠ none
  | .unknownOpcode => rec.addr = none ∧ rec.value = none ∧ rec.opcode ≠ none
  | .misalignedFetch => rec.addr = none ∧ rec.value = none ∧ rec.opcode = none
  | .operandOutOfRange => rec.addr = none ∧ (∃ v, rec.value = some v ∧ 15 < v.toNat) ∧ rec.opcode ≠ none
  | .romTooLarge => False
  | .invalidRegister => False

/-- What holds of the machine after every operation. -/
structure State.Inv (s : State) : Prop where
  /-- memory keeps its canonical form -/
  memWf : Memory.wf s.cfg s.mem
  /-- the reserved region holds its reset contents (20_memory.md R53) -/
  reserved : ∀ p ∈ s.mem, protectedLimit ≤ p.1
  /-- the largest value that any write gives pc (10_state.md R28) -/
  pcBound : s.pc.toNat ≤ 0x10FE
  /-- a return address is that of an instruction in memory plus 2 -/
  stackBound : ∀ j (h : j < 16), (s.stack[j]).toNat ≤ 0x1000
  /-- a core that waits or is stopped has been stepped -/
  notRunning : s.run ≠ .running → s.loadPhase = .started
  /-- a fault record has the fields of its kind -/
  record : ∀ rec, s.run = .faulted rec → LegalRecord rec

end Sys2Proof.Machine
end

