-- ==== Sys2Proof/Certificates/Slice0/Obligations.lean ====
section
/-! DEFINITION. The statements for the provers. Each docstring names the rule of spec/ that it formalises, or says
which decision of the spec (D<n>) or which log entry it rests on. -/

open Sys2Proof Sys2Proof.Machine

/-! ### Encoding and decoding -/

/-- 30_encoding.md R74: words of every family, written out from the patterns, decode to their instructions. -/
def Obligations.WrittenWordsDecode : Prop :=
  ∀ p ∈ ([(0x00E0, .cls 0), (0x00EE, .ret 0), (0x1234, .jp 0x234), (0x2210, .call 0x210),
      (0x3305, .seImm 3 5), (0x9120, .sneReg 1 2 0), (0x8F1E, .shl 15 1), (0xA2F0, .ldI 0x2F0),
      (0xC30F, .rnd 3 0x0F), (0xD125, .drw 1 2 5), (0xE49E, .skp 4), (0xF365, .ldVxMem 3)] : List (Nat × Instr)),
    decodeTableWord 16 p.1 = some p.2

/-- Decode and encode agree: no bit of an encoding is dropped, under either DECODE_DONT_CARE (30_encoding.md sections 2
and 3; the ignored digits are log 9). -/
def Obligations.DecodeOfEncodeIsTheInstruction : Prop :=
  ∀ m i, i.wellFormed m = true → decode m (encode i) = .ok i

/-- A word that decodes is the encoding of what it decodes to, so the word that a fault record holds can be read off the
instruction (30_encoding.md section 5; log 9, log 18). -/
def Obligations.DecodedWordIsItsEncoding : Prop :=
  ∀ m w i, decode m w = .ok i → encode i = w ∧ i.wellFormed m = true

/-- 30_encoding.md R74: under strict decoding a word decodes to a row exactly when `w & mask = match`, and no word
selects two rows. -/
def Obligations.StrictDecodeFollowsTheOpcodeMap : Prop :=
  (∀ w r, (∃ i, decode .strict w = .ok i ∧ i.mnemonic = r) ↔ w &&& r.matchAndMask.2 = r.matchAndMask.1) ∧
  ∀ w (r r' : Mnemonic), r.selects w = true → r'.selects w = true → r = r'

/-- Lax decoding ignores the x nibble of group 0 and the n nibble of groups 5 and 9, and agrees with strict on every
other word (30_encoding.md section 3, a parameter of the spec's decision D6). -/
def Obligations.LaxDecodeIgnoresTheUnnamedDigits : Prop :=
  ∀ w : Word,
    (w &&& 0xF0FF = 0x00E0 → ∃ d, decode .lax w = .ok (.cls d)) ∧
    (w &&& 0xF0FF = 0x00EE → ∃ d, decode .lax w = .ok (.ret d)) ∧
    (w &&& 0xF000 = 0x5000 → ∃ d, decode .lax w = .ok (.seReg (xField w) (yField w) d)) ∧
    (w &&& 0xF000 = 0x9000 → ∃ d, decode .lax w = .ok (.sneReg (xField w) (yField w) d)) ∧
    (w &&& 0xF0FF ≠ 0x00E0 → w &&& 0xF0FF ≠ 0x00EE → w &&& 0xF000 ≠ 0x5000 → w &&& 0xF000 ≠ 0x9000 →
      decode .lax w = decode .strict w)

/-! ### The step -/

/-- A step runs the decoded instruction: with the bytes at pc, the high byte at the lower address (20_memory.md section 2,
the spec's decision D1, general knowledge), it is exec of what they decode to, in the state with pc past the word
and the load window closed (30_encoding.md section 5; log 6). -/
def Obligations.StepRunsTheDecodedInstruction : Prop :=
  ∀ (s : State) (i : Instr), s.run = .running → s.pc.toNat + 1 < 4096 →
    (s.cfg.misalignedFetch = .fault → s.pc.toNat % 2 = 0) →
    decode s.cfg.decodeDontCare
      (BitVec.ofNat 16 ((s.byteAt s.pc.toNat).toNat * 256 + (s.byteAt (s.pc.toNat + 1)).toNat)) = .ok i →
    step s = exec i { s with pc := s.pc + 2, loadPhase := .started }

/-- An illegal word raises UnknownOpcode, with pc past it and nothing else changed. Under strict decoding the illegal words
are those that no row of the map selects; under lax those of them that are not of group 0 with low byte E0 or EE nor of
groups 5 and 9 (30_encoding.md sections 3 and 5; the spec's decisions D1, D6, D7; the load window is log 6). -/
def Obligations.UnmatchedWordRaisesUnknownOpcode : Prop :=
  ∀ (s : State) (w : Word), s.run = .running → s.pc.toNat + 1 < 4096 →
    (s.cfg.misalignedFetch = .fault → s.pc.toNat % 2 = 0) →
    w = BitVec.ofNat 16 ((s.byteAt s.pc.toNat).toNat * 256 + (s.byteAt (s.pc.toNat + 1)).toNat) →
    (∀ r : Mnemonic, w &&& r.matchAndMask.2 ≠ r.matchAndMask.1) →
    (s.cfg.decodeDontCare = .lax →
      w &&& 0xF0FF ≠ 0x00E0 ∧ w &&& 0xF0FF ≠ 0x00EE ∧ w &&& 0xF000 ≠ 0x5000 ∧ w &&& 0xF000 ≠ 0x9000) →
    step s = .next { s with
      pc := s.pc + 2
      loadPhase := .started
      run := .faulted { kind := .unknownOpcode, pc := s.pc, opcode := some w, addr := none, value := none } }

/-- A fetch that faults leaves pc at A and records no word: first the alignment under MISALIGNED_FETCH = fault, then
the byte at A, then the byte at A + 1 (30_encoding.md section 5, 60_exceptions.md section 2; the spec's decisions D2, D7). -/
def Obligations.FetchFaultLeavesPc : Prop :=
  ∀ s : State, s.run = .running →
    let stopped := fun (k : ErrorKind) (addr : Option Nat) =>
      ({ s with loadPhase := .started
                run := .faulted { kind := k, pc := s.pc, opcode := none, addr := addr, value := none } } : State)
    let misalignedHere := s.cfg.misalignedFetch = .fault ∧ s.pc.toNat % 2 = 1
    (misalignedHere → step s = .next (stopped .misalignedFetch none)) ∧
    (¬ misalignedHere → 4096 ≤ s.pc.toNat → step s = .next (stopped .outOfBounds (some s.pc.toNat))) ∧
    (¬ misalignedHere → s.pc.toNat = 4095 → step s = .next (stopped .outOfBounds (some 4096)))

/-- The record of a fault names the instruction: pc is the fetch address; for a fetch fault the word is none and pc stays,
for any later one it is the very word at pc, and pc is past it (30_encoding.md section 5, 60_exceptions.md section 2; the
spec's decisions D7, D8). -/
def Obligations.FaultRecordNamesTheFetchedWord : Prop :=
  ∀ (s t : State) (rec : FaultRecord), s.run = .running → step s = .next t → t.run = .faulted rec →
    rec.pc = s.pc ∧
    ((rec.opcode = none ∧ t.pc = s.pc) ∨
     (rec.opcode = some (BitVec.ofNat 16 ((s.byteAt s.pc.toNat).toNat * 256 + (s.byteAt (s.pc.toNat + 1)).toNat)) ∧
      t.pc = s.pc + 2))

/-- pc after a step, by instruction (10_state.md section 3, the table derived there). -/
def Obligations.PcAfterStepFollowsTheTable : Prop :=
  ∀ (s t : State) (w : Word) (i : Instr), s.run = .running → fetch s = .ok w →
    decode s.cfg.decodeDontCare w = .ok i → step s = .next t → (∀ rec, t.run ≠ .faulted rec) →
    t.pc.toNat = pcAfter s.pc.toNat s i

/-- Nothing is refused and nothing stops but a step in Faulted: every instruction answers a next state, so does every step of
a core that is not Faulted, and a step in Faulted has no transition (30_encoding.md section 5, 60_exceptions.md
section 3; the spec's decision D32; that a raise is a next state, and the form of the stop, are log 4). -/
def Obligations.OnlyAFaultedCoreStops : Prop :=
  (∀ i s, ∃ t, exec i s = .next t) ∧
  ∀ s : State, ((∀ rec, s.run ≠ .faulted rec) → ∃ t, step s = .next t) ∧
    ∀ rec, s.run = .faulted rec → step s = .fault (.stopped rec)

/-- A word placed for the next fetch is the word that the next step fetches, in a core that runs; the bytes elsewhere, and all
state but pc, the run state and memory, stay as they were (the model's own operation: log 8; the byte order is the
spec's decision D1, 20_memory.md section 2). -/
def Obligations.PlacedWordIsFetched : Prop :=
  ∀ (s : State) (w : Word), Memory.wf s.cfg s.mem →
    let t := s.withFetchWord 16 w.toNat
    fetch t = .ok w ∧ t = { s with pc := t.pc, run := .running, mem := t.mem } ∧
    (s.fetchable = true → t.pc = s.pc) ∧
    ∀ a, a ≠ t.pc.toNat → a ≠ t.pc.toNat + 1 → t.byteAt a = s.byteAt a

/-! ### Control flow -/

/-- 41_control_flow.md R102: JP nnn sets pc to nnn and nothing else. -/
def Obligations.JpSetsPcToItsAddress : Prop :=
  ∀ (nnn : Addr12) (s : State), ReadsAs (0x1000 + nnn.toNat) (.jp nnn) ∧
    ∃ t, exec (.jp nnn) s = .next t ∧ t.pc.toNat = nnn.toNat ∧ t = { s with pc := t.pc }

/-- RET pops pc, or raises StackUnderflow with SP and pc as they were (41_control_flow.md section on RET; the record's
fields are the spec's decisions D7 and D8, log 11 and log 18). The popped entry stays where it was. -/
def Obligations.RetPopsPc : Prop :=
  ∀ (d : Nibble) (s : State), ReadsAs 0x00EE (.ret 0) ∧
    (s.SP.val = 0 → exec (.ret d) s = .next (faultedBy (.ret d) .stackUnderflow none none s)) ∧
    (s.SP.val ≠ 0 → ∃ t, exec (.ret d) s = .next t ∧ t.SP.val + 1 = s.SP.val ∧
      t.pc = s.stack[s.SP.val - 1] ∧ t = { s with pc := t.pc, SP := t.SP })

/-- CALL nnn pushes the advanced pc and jumps, or raises StackOverflow with nothing pushed (41_control_flow.md section on
CALL; the record's fields are the spec's decisions D7 and D8, log 11 and log 18). -/
def Obligations.CallPushesTheAdvancedPc : Prop :=
  ∀ (nnn : Addr12) (s : State), ReadsAs (0x2000 + nnn.toNat) (.call nnn) ∧
    (s.SP.val = 16 → exec (.call nnn) s = .next (faultedBy (.call nnn) .stackOverflow none none s)) ∧
    (∀ h : s.SP.val < 16, ∃ t, exec (.call nnn) s = .next t ∧ t.SP.val = s.SP.val + 1 ∧
      t.stack[s.SP.val] = s.pc ∧ (∀ j (hj : j < 16), j ≠ s.SP.val → t.stack[j] = s.stack[j]) ∧
      t.pc.toNat = nnn.toNat ∧ t = { s with pc := t.pc, SP := t.SP, stack := t.stack })

/-- 41_control_flow.md R104-R107: the four compares skip one word when their condition holds and change nothing but pc;
5xyN and 9xyN with N not 0 raise UnknownOpcode at decode under strict decoding. -/
def Obligations.ComparesSkipOneWord : Prop :=
  ∀ (x y : Reg) (kk : Byte) (d : Nibble) (s : State),
    let skips := fun (i : Instr) (c : Prop) => ∃ t, exec i s = .next t ∧ t = { s with pc := t.pc } ∧
      (c → t.pc.toNat = (s.pc.toNat + 2) % 65536) ∧ (¬ c → t.pc = s.pc)
    let unknown := fun (w : Nat) => s.cfg.decodeDontCare = .strict →
      ∀ a, ∃ t rec, dispatchWord a (BitVec.ofNat 16 w) s = .next t ∧ t.run = .faulted rec ∧ rec.kind = .unknownOpcode
    (ReadsAs (0x3000 + x.val * 256 + kk.toNat) (.seImm x kk) ∧ skips (.seImm x kk) (s.readV x = kk)) ∧
    (ReadsAs (0x4000 + x.val * 256 + kk.toNat) (.sneImm x kk) ∧ skips (.sneImm x kk) (s.readV x ≠ kk)) ∧
    (ReadsAs (0x5000 + x.val * 256 + y.val * 16) (.seReg x y 0) ∧ skips (.seReg x y d) (s.readV x = s.readV y)) ∧
    (ReadsAs (0x9000 + x.val * 256 + y.val * 16) (.sneReg x y 0) ∧ skips (.sneReg x y d) (s.readV x ≠ s.readV y)) ∧
    (d ≠ 0 → unknown (0x5000 + x.val * 256 + y.val * 16 + d.val) ∧
      unknown (0x9000 + x.val * 256 + y.val * 16 + d.val))

/-- JP V0, nnn sets pc to the exact sum, which no 12-bit wrap reduces, and nothing else (41_control_flow.md section on Bnnn;
the spec's decision D3). -/
def Obligations.JpV0AddsV0Exactly : Prop :=
  ∀ (nnn : Addr12) (s : State), ReadsAs (0xB000 + nnn.toNat) (.jpV0 nnn) ∧
    ∃ t, exec (.jpV0 nnn) s = .next t ∧ t.pc.toNat = nnn.toNat + (s.readV 0).toNat ∧ t = { s with pc := t.pc }

/-- A return right after a call lands on the word after the call with the depth restored; only the dead stack entry
differs (90_conflicts.md C12). -/
def Obligations.CallThenRetComesBack : Prop :=
  ∀ (nnn : Addr12) (d : Nibble) (s : State), s.SP.val < 16 →
    ∃ t u, exec (.call nnn) s = .next t ∧ exec (.ret d) t = .next u ∧ u = { s with stack := u.stack } ∧
      ∀ j (h : j < 16), j ≠ s.SP.val → u.stack[j] = s.stack[j]

/-! ### ALU and registers -/

/-- 42_alu.md R124-R126: LD Vx, kk; ADD Vx, kk modulo 256 with VF not written; LD Vx, Vy. No other register and nothing else
changes, VF as data when x = F included. -/
def Obligations.ImmediateAndMoveWriteOnlyVx : Prop :=
  ∀ (x y : Reg) (kk : Byte) (s : State),
    (ReadsAs (0x6000 + x.val * 256 + kk.toNat) (.ldImm x kk) ∧
      ∃ t, exec (.ldImm x kk) s = .next t ∧ t.readV x = kk ∧ OnlyWritesV x s t) ∧
    (ReadsAs (0x7000 + x.val * 256 + kk.toNat) (.addImm x kk) ∧
      ∃ t, exec (.addImm x kk) s = .next t ∧ (t.readV x).toNat = ((s.readV x).toNat + kk.toNat) % 256 ∧
        OnlyWritesV x s t) ∧
    (ReadsAs (0x8000 + x.val * 256 + y.val * 16) (.ldReg x y) ∧
      ∃ t, exec (.ldReg x y) s = .next t ∧ t.readV x = s.readV y ∧ OnlyWritesV x s t)

/-- 42_alu.md R127-R129: OR, AND and XOR work bit by bit and write Vx only; VF is left unless x = F. -/
def Obligations.LogicalsWorkBitByBit : Prop :=
  ∀ (x y : Reg) (s : State),
    (ReadsAs (0x8001 + x.val * 256 + y.val * 16) (.orReg x y) ∧ ∃ t, exec (.orReg x y) s = .next t ∧
      OnlyWritesV x s t ∧ ∀ k < 8, (t.readV x).getLsbD k = ((s.readV x).getLsbD k || (s.readV y).getLsbD k)) ∧
    (ReadsAs (0x8002 + x.val * 256 + y.val * 16) (.andReg x y) ∧ ∃ t, exec (.andReg x y) s = .next t ∧
      OnlyWritesV x s t ∧ ∀ k < 8, (t.readV x).getLsbD k = ((s.readV x).getLsbD k && (s.readV y).getLsbD k)) ∧
    (ReadsAs (0x8003 + x.val * 256 + y.val * 16) (.xorReg x y) ∧ ∃ t, exec (.xorReg x y) s = .next t ∧
      OnlyWritesV x s t ∧ ∀ k < 8, (t.readV x).getLsbD k = ((s.readV x).getLsbD k ^^ (s.readV y).getLsbD k))

/-- ADD Vx, Vy: the sum modulo 256, and the carry [sum > 255], from the values before the step (42_alu.md section 4). The
write back with x = F is the spec's decision D5. -/
def Obligations.AddSetsCarry : Prop :=
  ∀ (x y : Reg) (s : State), ReadsAs (0x8004 + x.val * 256 + y.val * 16) (.addReg x y) ∧
    ∃ t, exec (.addReg x y) s = .next t ∧
      WritesBack x (((s.readV x).toNat + (s.readV y).toNat) % 256)
        (if (s.readV x).toNat + (s.readV y).toNat > 255 then 1 else 0) s t

/-- SUB and SUBN: the difference modulo 256, and the STRICT flag [a > b], 0 for equal operands, from the values before the
step (42_alu.md sections 1 and 4). The write back with x = F is the spec's decision D5. -/
def Obligations.SubtractionsSetTheStrictFlag : Prop :=
  ∀ (x y : Reg) (s : State),
    let a := (s.readV x).toNat
    let b := (s.readV y).toNat
    (ReadsAs (0x8005 + x.val * 256 + y.val * 16) (.sub x y) ∧ ∃ t, exec (.sub x y) s = .next t ∧
      WritesBack x ((a + 256 - b) % 256) (if a > b then 1 else 0) s t) ∧
    (ReadsAs (0x8007 + x.val * 256 + y.val * 16) (.subn x y) ∧ ∃ t, exec (.subn x y) s = .next t ∧
      WritesBack x ((b + 256 - a) % 256) (if b > a then 1 else 0) s t)

/-- SHR and SHL: one bit, VF the bit shifted out, of the register that SHIFT_SOURCE names (42_alu.md section 4; the spec's
decisions D5 and D26). -/
def Obligations.ShiftsSetTheBitShiftedOut : Prop :=
  ∀ (x y : Reg) (s : State) (a : Nat),
    (s.cfg.shiftSource = .vx → a = (s.readV x).toNat) → (s.cfg.shiftSource = .vy → a = (s.readV y).toNat) →
    (ReadsAs (0x8006 + x.val * 256 + y.val * 16) (.shr x y) ∧ ∃ t, exec (.shr x y) s = .next t ∧
      WritesBack x (a / 2) (a % 2) s t) ∧
    (ReadsAs (0x800E + x.val * 256 + y.val * 16) (.shl x y) ∧ ∃ t, exec (.shl x y) s = .next t ∧
      WritesBack x (a * 2 % 256) (a / 128) s t)

/-- RND: one draw, masked by kk, so every bit that is clear in kk is clear in Vx; no other register, and of the rest only the
count of draws moves (42_alu.md section 5; the spec's decision D24). The draw is a free value: log 2. -/
def Obligations.RndMasksOneFreeDraw : Prop :=
  ∀ (x : Reg) (kk : Byte) (s : State), ReadsAs (0xC000 + x.val * 256 + kk.toNat) (.rnd x kk) ∧
    ∃ t, exec (.rnd x kk) s = .next t ∧ t.readV x = Config.rngByte s.draws &&& kk ∧
      (∀ k, kk.getLsbD k = false → (t.readV x).getLsbD k = false) ∧
      (∀ q, q ≠ x → t.readV q = s.readV q) ∧ t = { s with V := t.V, draws := s.draws + 1 }

/-- A value kept in VF does not survive the flag-setting instructions: whatever it was, the same state results, for
operands other than VF itself (70_reset_and_hazards.md section 3, 10_state.md section 1; the operand snapshot is the spec's
decision D5). Of Dxyn this is said where the whole sprite can be read. -/
def Obligations.OldVfDoesNotSurviveFlagSetting : Prop :=
  ∀ (x y : Reg) (n : Nibble) (b : Byte) (s : State), x ≠ VF → y ≠ VF →
    (∀ i ∈ [Instr.addReg x y, .sub x y, .shr x y, .subn x y, .shl x y], exec i (s.writeV VF b) = exec i s) ∧
    (s.I.toNat + n.val ≤ 4096 → exec (.drw x y n) (s.writeV VF b) = exec (.drw x y n) s)

/-- The specified subtraction flag from hardware's a + NOT b + 1: the carry out and a result that is not 0
(42_alu.md section 1, derived there; alu_bnot is the spec's decision D30). -/
def Obligations.StrictFlagFromCarryAndBnot : Prop :=
  ∀ a b : Byte, let sum := a.toNat + (aluBnot b).toNat + 1
    BitVec.ofNat 8 sum = (aluSub a b).1 ∧ (aluSub a b).2 = (decide (sum > 255) && (aluSub a b).1 != 0) ∧
    (aluBnot b).toNat = 255 - b.toNat

/-! ### The address register, loads and stores -/

/-- 43_index_memory.md R150, R151: LD I, nnn zero-extends; ADD I, Vx wraps modulo 65536, not at 12 bits, and no register
changes, VF included. -/
def Obligations.LdIAndAddIWriteOnlyI : Prop :=
  ∀ (nnn : Addr12) (x : Reg) (s : State),
    (ReadsAs (0xA000 + nnn.toNat) (.ldI nnn) ∧
      ∃ t, exec (.ldI nnn) s = .next t ∧ t.I.toNat = nnn.toNat ∧ t = { s with I := t.I }) ∧
    (ReadsAs (0xF01E + x.val * 256) (.addI x) ∧
      ∃ t, exec (.addI x) s = .next t ∧ t.I.toNat = (s.I.toNat + (s.readV x).toNat) % 65536 ∧ t = { s with I := t.I })

/-- LD F, Vx points I at the glyph of a digit, or raises OperandOutOfRange with nothing else changed, for every FONT_BASE
(43_index_memory.md section on Fx29; the spec's decisions D12 and D17). -/
def Obligations.LdFPointsAtTheGlyph : Prop :=
  ∀ (x : Reg) (s : State), ReadsAs (0xF029 + x.val * 256) (.ldF x) ∧
    ((s.readV x).toNat ≤ 15 → ∃ t, exec (.ldF x) s = .next t ∧
      t.I.toNat = s.cfg.fontBase.val + 5 * (s.readV x).toNat ∧ t = { s with I := t.I }) ∧
    (15 < (s.readV x).toNat →
      exec (.ldF x) s = .next (faultedBy (.ldF x) .operandOutOfRange none (some (s.readV x)) s))

/-- LD B, Vx stores the three decimal digits at I, I + 1, I + 2, and no other byte or register changes. Below 0x200 it raises
at the first write with nothing stored, and past 0xFFF at the first address that does not exist, with the digits before it
stored (43_index_memory.md section on Fx33; the spec's decision D15). -/
def Obligations.LdBStoresDecimalDigits : Prop :=
  ∀ (x : Reg) (s : State), Memory.wf s.cfg s.mem →
    let a := s.effAddr 0
    let digit := fun (k : Nat) => (s.readV x).toNat / 10 ^ (2 - k) % 10
    ReadsAs (0xF033 + x.val * 256) (.ldB x) ∧
    (0x200 ≤ a → a + 2 < 4096 → ∃ t, exec (.ldB x) s = .next t ∧ OnlyStores a 3 s t ∧
      ∀ k < 3, (t.byteAt (a + k)).toNat = digit k) ∧
    (a < 0x200 → exec (.ldB x) s = .next (faultedBy (.ldB x) .protectedRegionViolation (some a) none s)) ∧
    (4096 ≤ a + 2 → ∃ t, exec (.ldB x) s = .next (faultedBy (.ldB x) .outOfBounds (some (max a 4096)) none t) ∧
      OnlyStores a (4096 - a) s t ∧ ∀ k < 4096 - a, (t.byteAt (a + k)).toNat = digit k)

/-- LD [I], Vx stores V0..Vx at I, I + 1, ..., leaves I, every register and every other byte; its raises keep the bytes before
the failing write (43_index_memory.md section on Fx55; the spec's decisions D13 and D15). -/
def Obligations.LdMemVxStoresRegisters : Prop :=
  ∀ (x : Reg) (s : State), Memory.wf s.cfg s.mem →
    let a := s.effAddr 0
    ReadsAs (0xF055 + x.val * 256) (.ldMemVx x) ∧
    (0x200 ≤ a → a + x.val < 4096 → ∃ t, exec (.ldMemVx x) s = .next t ∧ OnlyStores a (x.val + 1) s t ∧
      ∀ r : Reg, r ≤ x → t.byteAt (a + r.val) = s.readV r) ∧
    (a < 0x200 → exec (.ldMemVx x) s = .next (faultedBy (.ldMemVx x) .protectedRegionViolation (some a) none s)) ∧
    (4096 ≤ a + x.val → ∃ t,
      exec (.ldMemVx x) s = .next (faultedBy (.ldMemVx x) .outOfBounds (some (max a 4096)) none t) ∧
      OnlyStores a (4096 - a) s t ∧ ∀ r : Reg, a + r.val < 4096 → t.byteAt (a + r.val) = s.readV r)

/-- LD Vx, [I] loads V0..Vx from I, I + 1, ..., from the reserved region too, and leaves I, the other registers and all of memory;
its raise keeps the registers before the failing read (43_index_memory.md section on Fx65; the spec's decisions D13, D15). -/
def Obligations.LdVxMemLoadsRegisters : Prop :=
  ∀ (x : Reg) (s : State),
    let a := s.effAddr 0
    ReadsAs (0xF065 + x.val * 256) (.ldVxMem x) ∧
    (a + x.val < 4096 → ∃ t, exec (.ldVxMem x) s = .next t ∧ t = { s with V := t.V } ∧
      ∀ r : Reg, t.readV r = if r ≤ x then s.byteAt (a + r.val) else s.readV r) ∧
    (4096 ≤ a + x.val → ∃ t,
      exec (.ldVxMem x) s = .next (faultedBy (.ldVxMem x) .outOfBounds (some (max a 4096)) none t) ∧
      t = { s with V := t.V } ∧
      ∀ r : Reg, t.readV r = if a + r.val < 4096 then s.byteAt (a + r.val) else s.readV r)

/-- 20_memory.md R51, R52: MemRead raises OutOfBounds at 4096 and above and reads any byte below; MemWrite raises
ProtectedRegionViolation below 0x200 first, then OutOfBounds, and a write that does neither is read back, with every other byte
left. -/
def Obligations.MemoryPrimitivesReadAndWriteBytes : Prop :=
  ∀ (s : State) (a : Nat) (b : Byte), Memory.wf s.cfg s.mem →
    (4096 ≤ a → s.memRead a = .error { kind := .outOfBounds, addr := some a, value := none }) ∧
    (a < 4096 → s.memRead a = .ok (s.byteAt a)) ∧
    (a < 0x200 → s.memWrite a b = .error { kind := .protectedRegionViolation, addr := some a, value := none }) ∧
    (4096 ≤ a → s.memWrite a b = .error { kind := .outOfBounds, addr := some a, value := none }) ∧
    (0x200 ≤ a → a < 4096 → ∃ t, s.memWrite a b = .ok t ∧ t = { s with mem := t.mem } ∧
      t.byteAt a = b ∧ ∀ c, c ≠ a → t.byteAt c = s.byteAt c)

/-- What LD [I], Vx stores, LD Vx, [I] loads back: the two together leave every register as it was (43_index_memory.md
sections on Fx55 and Fx65; the spec's decision D13). -/
def Obligations.StoreThenLoadRestoresRegisters : Prop :=
  ∀ (x : Reg) (s : State), Memory.wf s.cfg s.mem → 0x200 ≤ s.I.toNat → s.I.toNat + x.val < 4096 →
    ∃ t, exec (.ldMemVx x) s = .next t ∧ exec (.ldVxMem x) t = .next t ∧ t.V = s.V

/-- Self-modifying code works: the word that LD [I], Vx stores is the word that a fetch at I reads (20_memory.md section 3,
70_reset_and_hazards.md section 3, derived there; the byte order is the spec's decision D1). -/
def Obligations.StoredWordIsFetched : Prop :=
  ∀ (x : Reg) (s : State), Memory.wf s.cfg s.mem → 1 ≤ x → 0x200 ≤ s.I.toNat → s.I.toNat + x.val < 4096 →
    (s.cfg.misalignedFetch = .fault → s.I.toNat % 2 = 0) →
    ∃ t, exec (.ldMemVx x) s = .next t ∧
      fetch { t with pc := t.I } = .ok (BitVec.ofNat 16 ((s.readV 0).toNat * 256 + (s.readV 1).toNat))

/-! ### The display -/

/-- 44_display.md R172: CLS turns every pixel off and changes nothing else. -/
def Obligations.ClsTurnsEveryPixelOff : Prop :=
  ∀ (d : Nibble) (s : State), ReadsAs 0x00E0 (.cls 0) ∧
    ∃ t, exec (.cls d) s = .next t ∧ (∀ X Y, pixelAt t.pix X Y = false) ∧ t = { s with pix := t.pix }

/-- DRW flips exactly the pixels that set bits of the sprite cover, wrapped per pixel, sets VF to whether one of them was
lit, and changes nothing else, n = 0 included. A sprite that runs past 0xFFF raises at the first row that cannot be read,
with the rows before it drawn and VF as it was (44_display.md section on Dxyn; the record's pc and word are 60_exceptions.md
section 2 and 30_encoding.md section 5; the spec's decisions D7, D8, D14, D15, D16). -/
def Obligations.DrwFlipsTheCoveredPixels : Prop :=
  ∀ (x y : Reg) (n : Nibble) (s : State),
    let px0 := (s.readV x).toNat
    let py0 := (s.readV y).toNat
    let a := s.effAddr 0
    ReadsAs (0xD000 + x.val * 256 + y.val * 16 + n.val) (.drw x y n) ∧
    (n = 0 ∨ a + n.val ≤ 4096 → ∃ t, exec (.drw x y n) s = .next t ∧ FlipsCovered s px0 py0 n.val t.pix ∧
      ((∃ X Y, Covers s px0 py0 n.val X Y ∧ pixelAt s.pix X Y = true) → t.readV VF = 1) ∧
      ((¬ ∃ X Y, Covers s px0 py0 n.val X Y ∧ pixelAt s.pix X Y = true) → t.readV VF = 0) ∧
      (∀ q, q ≠ VF → t.readV q = s.readV q) ∧ t = { s with V := t.V, pix := t.pix }) ∧
    (n ≠ 0 → 4096 < a + n.val → ∃ t,
      exec (.drw x y n) s = .next (faultedBy (.drw x y n) .outOfBounds (some (max a 4096)) none t) ∧
      FlipsCovered s px0 py0 (4096 - a) t.pix ∧ t = { s with pix := t.pix })

/-- Drawing the same sprite twice at the same place gives the display back, and the second draw reports a collision
exactly when the sprite has a set bit, if none of the pixels it covers was lit (44_display.md section on Dxyn; the spec's
decisions D14, D16). -/
def Obligations.DrwTwiceGivesTheDisplayBack : Prop :=
  ∀ (x y : Reg) (n : Nibble) (s : State), x ≠ VF → y ≠ VF → s.I.toNat + n.val ≤ 4096 →
    let covers := Covers s (s.readV x).toNat (s.readV y).toNat n.val
    ∃ t u, exec (.drw x y n) s = .next t ∧ exec (.drw x y n) t = .next u ∧ u.pix = s.pix ∧
      ((∀ X Y, covers X Y → pixelAt s.pix X Y = false) →
        t.readV VF = 0 ∧ ((∃ X Y, covers X Y) → u.readV VF = 1) ∧ ((¬ ∃ X Y, covers X Y) → u.readV VF = 0))

/-! ### Keypad and timers -/

/-- SKP and SKNP read the level of the key that Vx names and change nothing but pc; a value above 15 raises OperandOutOfRange
(45_keypad_timers.md section on Ex9E and ExA1; the spec's decision D11). -/
def Obligations.KeySkipsReadTheLevel : Prop :=
  ∀ (x : Reg) (s : State),
    ReadsAs (0xE09E + x.val * 256) (.skp x) ∧ ReadsAs (0xE0A1 + x.val * 256) (.sknp x) ∧
    (∀ k : Fin 16, (s.readV x).toNat = k.val →
      ∃ t u, exec (.skp x) s = .next t ∧ exec (.sknp x) s = .next u ∧
        t = { s with pc := t.pc } ∧ u = { s with pc := u.pc } ∧
        (s.key[k.val] = true → t.pc.toNat = (s.pc.toNat + 2) % 65536 ∧ u.pc = s.pc) ∧
        (s.key[k.val] = false → t.pc = s.pc ∧ u.pc.toNat = (s.pc.toNat + 2) % 65536)) ∧
    (15 < (s.readV x).toNat →
      exec (.skp x) s = .next (faultedBy (.skp x) .operandOutOfRange none (some (s.readV x)) s) ∧
      exec (.sknp x) s = .next (faultedBy (.sknp x) .operandOutOfRange none (some (s.readV x)) s))

/-- 45_keypad_timers.md R183, R186, R187: LD Vx, DT; LD DT, Vx; LD ST, Vx move the whole byte and change nothing else. -/
def Obligations.TimerMovesWriteOneRegister : Prop :=
  ∀ (x : Reg) (s : State),
    (ReadsAs (0xF007 + x.val * 256) (.ldVxDt x) ∧
      ∃ t, exec (.ldVxDt x) s = .next t ∧ t.readV x = s.DT ∧ OnlyWritesV x s t) ∧
    (ReadsAs (0xF015 + x.val * 256) (.ldDt x) ∧
      ∃ t, exec (.ldDt x) s = .next t ∧ t.DT = s.readV x ∧ t = { s with DT := t.DT }) ∧
    (ReadsAs (0xF018 + x.val * 256) (.ldSt x) ∧
      ∃ t, exec (.ldSt x) s = .next t ∧ t.ST = s.readV x ∧ t = { s with ST := t.ST })

/-- LD Vx, K enters the wait with a snapshot of the keys; Vx and pc stay, and nothing else changes (45_keypad_timers.md
section on Fx0A; the spec's decision D10). -/
def Obligations.LdVxKStartsTheWait : Prop :=
  ∀ (x : Reg) (s : State), ReadsAs (0xF00A + x.val * 256) (.ldVxK x) ∧
    ∃ t, exec (.ldVxK x) s = .next t ∧ (∃ prev, t.run = .awaitingKey x prev ∧ ∀ k : Fin 16, prev[k.val] = s.key[k.val]) ∧
      t = { s with run := t.run }

/-- The wait step: with no fresh key it polls again; with one it stores a fresh key, the smallest under KEY_SELECT = lowest,
in Vx and returns to Running. It fetches nothing, moves no pc and changes nothing else (45_keypad_timers.md section on the
wait step; the spec's decision D10; the free choice under `any` is log 3, the load window log 6). -/
def Obligations.WaitStepTakesAFreshKey : Prop :=
  ∀ (s : State) (x : Reg) (prev : Keys), s.run = .awaitingKey x prev →
    ∃ t, step s = .next t ∧
      ((∀ k, ¬ Fresh s.key prev k) → t = { s with run := .awaitingKey x s.key, loadPhase := .started }) ∧
      ((∃ k, Fresh s.key prev k) →
        t = { s with V := t.V, run := .running, draws := t.draws, loadPhase := .started } ∧
        (∀ q, q ≠ x → t.readV q = s.readV q) ∧
        ∃ k, Fresh s.key prev k ∧ (t.readV x).toNat = k.val ∧
          (s.cfg.keySelect = .lowest → t.draws = s.draws ∧ ∀ k', Fresh s.key prev k' → k ≤ k'))

/-- Any number of ticks takes each timer down by that number, not below 0, in any run state, and changes nothing else
(60_exceptions.md section 5; the spec's decisions D18, D19). -/
def Obligations.TicksSaturateAtZero : Prop :=
  ∀ (n : Nat) (s : State), ∃ t, performAll (List.replicate n .tickTimers) s = t ∧
    t.DT.toNat = s.DT.toNat - n ∧ t.ST.toNat = s.ST.toNat - n ∧ t = { s with DT := t.DT, ST := t.ST }

/-- set_pressed(k, b) writes the flag of that key and changes nothing else, in any run state (60_exceptions.md section 6;
the spec's decisions D18 and D19). -/
def Obligations.KeyEventWritesOneFlag : Prop :=
  ∀ (k : Fin 16) (b : Bool) (s : State), ∃ t, perform (.setPressed k b) s = .next t ∧
    t.key[k.val] = b ∧ (∀ q : Fin 16, q ≠ k → t.key[q.val] = s.key[q.val]) ∧ t = { s with key := t.key }

/-! ### The whole machine -/

/-- No instruction changes a register that the table does not give it (10_state.md section 1, the table derived there). -/
def Obligations.RegistersAreWrittenAsListed : Prop :=
  ∀ (i : Instr) (s t : State) (q : Reg), exec i s = .next t → mayWriteV i q = false → t.readV q = s.readV q

/-- Who writes what, beside the registers, which are `Obligations.RegistersAreWrittenAsListed`: pc only the jumps, 2nnn, 00EE and
the skips, past the advance of the fetch; I only Annn, Fx1E and Fx29; DT only Fx15; ST only Fx18; the display only 00E0 and
Dxyn; SP only 2nnn and 00EE; the stack entries only 2nnn; memory only Fx33 and Fx55; the run state only Fx0A or a raise; the
keys no instruction; a free value only Cxkk and the flag-setting ALU instructions (10_state.md sections 2 to 8, 20_memory.md
section 1; the spec's decisions D7 and D10; the parameters are log 1, the load window log 6). -/
def Obligations.StateIsWrittenOnlyByItsInstructions : Prop :=
  ∀ (i : Instr) (s t : State), exec i s = .next t →
    t.key = s.key ∧ t.cfg = s.cfg ∧ t.loadPhase = s.loadPhase ∧
    (t.pc ≠ s.pc → i.mnemonic ∈
      [.JP, .JP_V0, .CALL, .RET, .SE_IMM, .SNE_IMM, .SE_REG, .SNE_REG, .SKP, .SKNP]) ∧
    (t.I ≠ s.I → i.mnemonic ∈ [.LD_I, .ADD_I, .LD_F]) ∧
    (t.DT ≠ s.DT → i.mnemonic = .LD_DT) ∧
    (t.ST ≠ s.ST → i.mnemonic = .LD_ST) ∧
    (t.pix ≠ s.pix → i.mnemonic ∈ [.CLS, .DRW]) ∧
    (t.SP ≠ s.SP → i.mnemonic ∈ [.CALL, .RET]) ∧
    (t.stack ≠ s.stack → i.mnemonic = .CALL) ∧
    (t.mem ≠ s.mem → i.mnemonic ∈ [.LD_B, .LD_MEM_VX]) ∧
    (t.run ≠ s.run → i.mnemonic = .LD_VX_K ∨ ∃ rec, t.run = .faulted rec) ∧
    (t.draws ≠ s.draws → i.mnemonic ∈ [.RND, .ADD_REG, .SUB, .SHR, .SUBN, .SHL])

/-- No instruction raises a kind that the table does not give it, and a raise leaves pc past the word (60_exceptions.md sections
1 and 2; the spec's decisions D9, D11, D12). -/
def Obligations.InstructionsRaiseOnlyTheirKinds : Prop :=
  ∀ (i : Instr) (s t : State) (rec : FaultRecord), s.run = .running → exec i s = .next t → t.run = .faulted rec →
    rec.kind ∈ mayRaise i.mnemonic ∧ rec.pc = s.pc - 2 ∧ rec.opcode = some (encode i) ∧ t.pc = s.pc

/-- The reset state meets the invariant. -/
def Obligations.ResetMeetsTheInvariant : Prop := State.reset.Inv

/-- Every step keeps the invariant: memory in its canonical form, the reserved region at its reset contents, pc at most 0x10FE
and return addresses at most 0x1000, and a fault record with the fields of its kind (10_state.md section 3, 20_memory.md
section 1, 60_exceptions.md sections 1 and 2). -/
def Obligations.StepKeepsTheInvariant : Prop :=
  ∀ s t : State, s.Inv → step s = .next t → t.Inv

/-- Every interleaving of the four agents' operations keeps the invariant (10_state.md section 10; the spec's decision D18). -/
def Obligations.EveryInterleavingKeepsTheInvariant : Prop :=
  ∀ (os : List Operation) (s : State), s.Inv → (performAll os s).Inv

/-- No operation, whatever its order, changes a byte below 0x200 but a reset, and a reset leaves the font table and zeros there: in
every reached state each such byte is its reset content (20_memory.md section 1; the spec's decisions D17, D21). -/
def Obligations.ReservedRegionHoldsTheFontTable : Prop :=
  ∀ (os : List Operation) (s : State) (a : Nat), s.Inv → a < 0x200 →
    let t := performAll os s
    t.cfg = s.cfg ∧
    (∀ j (h : j < 80), a = s.cfg.fontBase.val + j → t.byteAt a = s.cfg.fontBytes[j]) ∧
    ((a < s.cfg.fontBase.val ∨ s.cfg.fontBase.val + 80 ≤ a) → t.byteAt a = 0)

/-- A stopped core stays stopped, with its record, whatever operations but a reset come: only the timers and the keys still move
(60_exceptions.md section 3; the spec's decisions D19, D32; log 7). -/
def Obligations.OnlyResetLeavesFaulted : Prop :=
  ∀ (os : List Operation) (s : State) (rec : FaultRecord), s.run = .faulted rec → s.loadPhase = .started →
    (∀ o ∈ os, o ≠ .reset) →
    performAll os s = { s with
      DT := (performAll os s).DT, ST := (performAll os s).ST, key := (performAll os s).key }

/-- Stack entries at or above SP cannot be observed, for the same draws: two states that differ only there do the same at every
operation, and still differ only there (10_state.md section 4, derived there; the spec's decision D31). It compares two
runs: for Cxkk, for VF under `any` with x = F and for the key under `any` both take the same free value because their
counts of draws are equal, which is the model's and no promise of the spec (log 2, log 3). -/
def Obligations.DeadStackEntriesAreUnobservable : Prop :=
  ∀ (o : Operation) (s t : State), SameLiveStack s t →
    (∀ s', perform o s = .next s' → ∃ t', perform o t = .next t' ∧ SameLiveStack s' t') ∧
    (∀ f, perform o s = .fault f → perform o t = .fault f) ∧
    (∀ r, perform o s = .refused r → perform o t = .refused r)

/-- At a normal end every step leaves the state unchanged, but for the load window (70_reset_and_hazards.md section 5;
the spec's decision D18; log 6). -/
def Obligations.NormalEndStaysPut : Prop :=
  ∀ s : State, NormalEnd s → step s = .next { s with loadPhase := .started }

/-- reset() sets every piece of state, in every run state, to the values of the reset table, with FONT_BYTES at FONT_BASE; power-on
is the same state (70_reset_and_hazards.md section 1, 10_state.md section 11; the spec's decisions D17, D21; that the parameters
and the count of draws stay is log 1 and log 17, the load window log 6). -/
def Obligations.ResetSetsEveryPieceOfState : Prop :=
  resetCore State.reset = State.reset ∧
  ∀ s : State, let t := resetCore s
    (∀ r, t.readV r = 0) ∧ t.I = 0 ∧ t.pc = 0x200 ∧ t.SP = 0 ∧ (∀ j (h : j < 16), t.stack[j] = 0) ∧
    t.DT = 0 ∧ t.ST = 0 ∧ (∀ X Y, pixelAt t.pix X Y = false) ∧ (∀ k : Fin 16, t.key[k.val] = false) ∧
    t.run = .running ∧ t.cfg = s.cfg ∧ t.draws = s.draws ∧ t.loadPhase = .awaitingRom ∧
    (∀ j (h : j < 80), t.byteAt (s.cfg.fontBase.val + j) = s.cfg.fontBytes[j]) ∧
    ∀ a, (a < s.cfg.fontBase.val ∨ s.cfg.fontBase.val + 80 ≤ a) → t.byteAt a = 0

/-- load_rom copies the image to 0x200 and on, changes no other byte and no other state but the load window, fails with
RomTooLarge above 3584 bytes, and is refused after a load or a step (20_memory.md section 1, 70_reset_and_hazards.md section 2;
the spec's decision D20; log 6, log 16). -/
def Obligations.LoadRomCopiesTheImage : Prop :=
  ∀ (bytes : List Byte) (s : State), Memory.wf s.cfg s.mem →
    (s.loadPhase = .awaitingRom → bytes.length ≤ 3584 → ∃ t, loadRom bytes s = .next t ∧
      (∀ j (h : j < bytes.length), t.byteAt (0x200 + j) = bytes[j]) ∧
      (∀ a, (a < 0x200 ∨ 0x200 + bytes.length ≤ a) → t.byteAt a = s.byteAt a) ∧
      t = { s with mem := t.mem, loadPhase := .romLoaded }) ∧
    (s.loadPhase = .awaitingRom → 3584 < bytes.length → loadRom bytes s = .fault .romTooLarge) ∧
    (s.loadPhase ≠ .awaitingRom → loadRom bytes s = .refused .loadRomNotAdmitted)
end

