-- ==== Sys2Proof/Laws/Decode.lean ====
section
/-! SUPPORT. The words that the patterns make, as numbers, and the fields that the decoder cuts from them. -/

namespace Sys2Proof

theorem nibbleAt_val (w : Word) (lo : Nat) : (nibbleAt w lo).val = w.toNat / 2 ^ lo % 16 := rfl

theorem digits_toNat {op : Nat} (h : op < 16) (x y n : Fin 16) :
    (digits op x y n).toNat = op * 4096 + x.val * 256 + y.val * 16 + n.val := by
  simp only [digits, BitVec.toNat_ofNat]
  omega

theorem digitRegByte_toNat {op : Nat} (h : op < 16) (x : Reg) (kk : Byte) :
    (digitRegByte op x kk).toNat = op * 4096 + x.val * 256 + kk.toNat := by
  have := kk.isLt
  simp only [digitRegByte, BitVec.toNat_ofNat]
  omega

theorem digitAddr_toNat {op : Nat} (h : op < 16) (nnn : Addr12) :
    (digitAddr op nnn).toNat = op * 4096 + nnn.toNat := by
  have := nnn.isLt
  simp only [digitAddr, BitVec.toNat_ofNat]
  omega

/-- The four digits of a word of digits. -/
theorem fields_digits {op : Nat} (h : op < 16) (x y n : Fin 16) :
    (opField (digits op x y n)).val = op ∧ xField (digits op x y n) = x ∧
    yField (digits op x y n) = y ∧ nField (digits op x y n) = n := by
  have := digits_toNat h x y n
  refine ⟨?_, Fin.ext ?_, Fin.ext ?_, Fin.ext ?_⟩ <;>
    simp only [opField, xField, yField, nField, nibbleAt_val, this] <;> omega

/-- The digit, the register and the byte of a word of the pattern `3xkk`. -/
theorem fields_digitRegByte {op : Nat} (h : op < 16) (x : Reg) (kk : Byte) :
    (opField (digitRegByte op x kk)).val = op ∧ xField (digitRegByte op x kk) = x ∧
    kkField (digitRegByte op x kk) = kk := by
  have := digitRegByte_toNat h x kk
  have := kk.isLt
  refine ⟨?_, Fin.ext ?_, BitVec.eq_of_toNat_eq ?_⟩ <;>
    simp only [opField, xField, kkField, nibbleAt_val, BitVec.toNat_ofNat, *] <;> omega

/-- The digit and the address of a word of the pattern `1nnn`. -/
theorem fields_digitAddr {op : Nat} (h : op < 16) (nnn : Addr12) :
    (opField (digitAddr op nnn)).val = op ∧ nnnField (digitAddr op nnn) = nnn := by
  have := digitAddr_toNat h nnn
  have := nnn.isLt
  refine ⟨?_, BitVec.eq_of_toNat_eq ?_⟩ <;>
    simp only [opField, nnnField, nibbleAt_val, BitVec.toNat_ofNat, *] <;> omega

/-- The bytes of a word, put together again in the same order, are the word. -/
theorem wordOfBytes_bytesOfWord (w : Word) : wordOfBytes (hiByte w) (loByte w) = w := by
  have := w.isLt
  apply BitVec.eq_of_toNat_eq
  simp only [wordOfBytes, hiByte, loByte, BitVec.toNat_ofNat]
  omega

end Sys2Proof
end

