-- ==== Sys2Proof/Laws/Memory.lean ====
section
/-! SUPPORT. Memory: a read after a write, the canonical form kept, and equal reads make equal memories. -/

namespace Sys2Proof.Machine

variable (c : Config)

/-- The font lies below the write-protected limit, so every writable address reads as 0 unlisted. -/
theorem resetByte_writable {a : Nat} (h : protectedLimit ≤ a) : resetByte c a = 0 := by
  have := c.fontBase.isLt
  simp only [resetByte]
  rw [dif_neg]
  simp only [protectedLimit, fontSize] at *
  omega

theorem Memory.read_cons_same (a : Nat) (b : Byte) {m : Memory} (h : Memory.lookup m a = none) :
    Memory.read c (Memory.cons c a b m) a = b := by
  unfold Memory.read Memory.cons
  split <;> simp_all [Memory.lookup]

theorem Memory.lookup_cons_other {a x : Nat} (b : Byte) (m : Memory) (h : a ≠ x) :
    Memory.lookup (Memory.cons c a b m) x = Memory.lookup m x := by
  unfold Memory.cons
  split <;> simp [Memory.lookup, h]

/-- An address that no entry has is not listed. -/
theorem Memory.lookup_eq_none {m : Memory} {a : Nat} (h : ∀ p ∈ m, p.1 ≠ a) : Memory.lookup m a = none := by
  induction m with
  | nil => rfl
  | cons p m ih =>
    simp only [Memory.lookup]
    rw [if_neg (h p (by simp))]
    exact ih fun q hq => h q (by simp [hq])

/-- An unlisted address reads as its reset content. -/
theorem Memory.read_unlisted {m : Memory} {a : Nat} (h : ∀ p ∈ m, p.1 ≠ a) : Memory.read c m a = resetByte c a := by
  rw [Memory.read, Memory.lookup_eq_none h]
  rfl

theorem Memory.lookup_write_other {m : Memory} {a x : Nat} (b : Byte) (h : a ≠ x) :
    Memory.lookup (Memory.write c m a b) x = Memory.lookup m x := by
  induction m with
  | nil => exact Memory.lookup_cons_other c b [] h
  | cons p m ih =>
    obtain ⟨k, v⟩ := p
    simp only [Memory.write]
    split
    · exact Memory.lookup_cons_other c b _ h
    · split
      · rename_i h1 h2
        rw [Memory.lookup_cons_other c b m h]
        simp [Memory.lookup, show k ≠ x by omega]
      · simp [Memory.lookup, ih]

/-- A write leaves every other address as it was. -/
theorem Memory.read_write_other {m : Memory} {a x : Nat} (b : Byte) (h : a ≠ x) :
    Memory.read c (Memory.write c m a b) x = Memory.read c m x := by
  simp [Memory.read, Memory.lookup_write_other c b h]

/-- A read after a write to the same address gives the byte written. -/
theorem Memory.read_write_same {m : Memory} (h : Memory.wf c m) (a : Nat) (b : Byte) :
    Memory.read c (Memory.write c m a b) a = b := by
  induction m with
  | nil => exact Memory.read_cons_same c a b rfl
  | cons p m ih =>
    obtain ⟨k, v⟩ := p
    obtain ⟨hs, hm⟩ := h
    rw [List.pairwise_cons] at hs
    simp only [Memory.write]
    split
    · refine Memory.read_cons_same c a b (Memory.lookup_eq_none fun q hq => ?_)
      rcases List.mem_cons.1 hq with rfl | hq
      · exact Nat.ne_of_gt (by assumption)
      · have := hs.1 q hq
        simp only at this
        omega
    · split
      · rename_i h1 h2
        exact Memory.read_cons_same c a b (Memory.lookup_eq_none fun q hq => h2 ▸ Nat.ne_of_gt (hs.1 q hq))
      · rename_i h1 h2
        have := ih ⟨hs.2, fun q hq => hm q (by simp [hq])⟩
        simp only [Memory.read, Memory.lookup] at this ⊢
        rw [if_neg (by omega)]
        exact this

/-- A write lists no address but the old ones and its own. -/
theorem Memory.mem_write {m : Memory} {a : Nat} {b : Byte} {p : Host.Cell} (h : p ∈ Memory.write c m a b) :
    p ∈ m ∨ (p = (a, b) ∧ b ≠ resetByte c a) := by
  induction m with
  | nil =>
    simp only [Memory.write, Memory.cons] at h
    split at h
    · simp at h
    · simp_all
  | cons q m ih =>
    obtain ⟨k, v⟩ := q
    simp only [Memory.write, Memory.cons] at h
    split at h
    · split at h
      · exact .inl h
      · rcases List.mem_cons.1 h with h | h
        · exact .inr ⟨h, by assumption⟩
        · exact .inl h
    · split at h
      · split at h
        · exact .inl (by simp [h])
        · rcases List.mem_cons.1 h with h | h
          · exact .inr ⟨h, by assumption⟩
          · exact .inl (by simp [h])
      · rcases List.mem_cons.1 h with h | h
        · exact .inl (by simp [h])
        · rcases ih h with h | h
          · exact .inl (by simp [h])
          · exact .inr h

/-- A write keeps the canonical form. -/
theorem Memory.write_wf {m : Memory} (h : Memory.wf c m) {a : Nat} (ha : a < memSize) (b : Byte) :
    Memory.wf c (Memory.write c m a b) := by
  refine ⟨?_, fun p hp => ?_⟩
  · induction m with
    | nil =>
      simp only [Memory.write, Memory.cons]
      split <;> simp
    | cons q m ih =>
      obtain ⟨k, v⟩ := q
      obtain ⟨hs, hm⟩ := h
      have hs' := List.pairwise_cons.1 hs
      have hrest := ih ⟨hs'.2, fun q hq => hm q (by simp [hq])⟩
      simp only [Memory.write, Memory.cons]
      split
      · split
        · exact hs
        · refine List.pairwise_cons.2 ⟨fun q hq => ?_, hs⟩
          rcases List.mem_cons.1 hq with rfl | hq
          · assumption
          · exact Nat.lt_trans (by assumption) (hs'.1 q hq)
      · split
        · rename_i h1 h2
          subst h2
          split
          · exact hs'.2
          · exact List.pairwise_cons.2 ⟨hs'.1, hs'.2⟩
        · refine List.pairwise_cons.2 ⟨fun q hq => ?_, hrest⟩
          rcases Memory.mem_write c hq with hq | ⟨rfl, -⟩
          · exact hs'.1 q hq
          · simp only
            omega
  · rcases Memory.mem_write c hp with hp | ⟨rfl, hb⟩
    · exact h.2 p hp
    · exact ⟨ha, hb⟩

/-- What canonical memory reads at a listed address is its entry. -/
theorem Memory.lookup_of_mem {m : Memory} (h : m.Pairwise fun p q : Host.Cell => p.1 < q.1) {p : Host.Cell}
    (hp : p ∈ m) : Memory.lookup m p.1 = some p.2 := by
  induction m with
  | nil => simp at hp
  | cons q m ih =>
    obtain ⟨hq, hm⟩ := List.pairwise_cons.1 h
    rcases List.mem_cons.1 hp with rfl | hp
    · simp [Memory.lookup]
    · have := hq p hp
      simp only [Memory.lookup]
      rw [if_neg (by omega)]
      exact ih hm hp

theorem Memory.mem_of_lookup {m : Memory} {a : Nat} {b : Byte} (h : Memory.lookup m a = some b) : (a, b) ∈ m := by
  induction m with
  | nil => simp [Memory.lookup] at h
  | cons q m ih =>
    simp only [Memory.lookup] at h
    split at h
    · rename_i hk
      obtain rfl := hk
      obtain rfl := Option.some.inj h
      simp
    · simp [ih h]

theorem Memory.mem_iff_read {m : Memory} (h : Memory.wf c m) (p : Host.Cell) :
    p ∈ m ↔ Memory.read c m p.1 = p.2 ∧ p.2 ≠ resetByte c p.1 := by
  constructor
  · exact fun hp => ⟨by simp [Memory.read, Memory.lookup_of_mem h.1 hp], (h.2 p hp).2⟩
  · rintro ⟨hr, hd⟩
    unfold Memory.read at hr
    cases hl : Memory.lookup m p.1 with
    | none => simp_all
    | some b =>
      have := Memory.mem_of_lookup hl
      simp_all

/-- Canonical memories that read alike everywhere are the same list. -/
theorem Memory.ext_read {m m' : Memory} (h : Memory.wf c m) (h' : Memory.wf c m')
    (hr : ∀ a, Memory.read c m a = Memory.read c m' a) : m = m' :=
  List.Pairwise.eq_of_mem_iff (r := fun p q : Host.Cell => p.1 < q.1) h.1 h'.1
    fun p => by rw [Memory.mem_iff_read c h, Memory.mem_iff_read c h', hr]

end Sys2Proof.Machine
end

