-- ==== Sys2Proof/Laws/State.lean ====
section
/-! SUPPORT. One lemma per field per update of the state: what `Machine/Ops.lean`'s updates write and leave. -/

namespace Sys2Proof.Machine.State

variable (s : State)

@[simp] theorem writeV_V (r : Reg) (b : Byte) : (s.writeV r b).V = s.V.set r.val b := rfl
@[simp] theorem writeV_I (r : Reg) (b : Byte) : (s.writeV r b).I = s.I := rfl
@[simp] theorem writeV_pc (r : Reg) (b : Byte) : (s.writeV r b).pc = s.pc := rfl
@[simp] theorem writeV_SP (r : Reg) (b : Byte) : (s.writeV r b).SP = s.SP := rfl
@[simp] theorem writeV_stack (r : Reg) (b : Byte) : (s.writeV r b).stack = s.stack := rfl
@[simp] theorem writeV_DT (r : Reg) (b : Byte) : (s.writeV r b).DT = s.DT := rfl
@[simp] theorem writeV_ST (r : Reg) (b : Byte) : (s.writeV r b).ST = s.ST := rfl
@[simp] theorem writeV_pix (r : Reg) (b : Byte) : (s.writeV r b).pix = s.pix := rfl
@[simp] theorem writeV_key (r : Reg) (b : Byte) : (s.writeV r b).key = s.key := rfl
@[simp] theorem writeV_run (r : Reg) (b : Byte) : (s.writeV r b).run = s.run := rfl
@[simp] theorem writeV_mem (r : Reg) (b : Byte) : (s.writeV r b).mem = s.mem := rfl
@[simp] theorem writeV_cfg (r : Reg) (b : Byte) : (s.writeV r b).cfg = s.cfg := rfl
@[simp] theorem writeV_draws (r : Reg) (b : Byte) : (s.writeV r b).draws = s.draws := rfl
@[simp] theorem writeV_loadPhase (r : Reg) (b : Byte) : (s.writeV r b).loadPhase = s.loadPhase := rfl

@[simp] theorem setI_V (a : Word) : (s.setI a).V = s.V := rfl
@[simp] theorem setI_I (a : Word) : (s.setI a).I = a := rfl
@[simp] theorem setI_pc (a : Word) : (s.setI a).pc = s.pc := rfl
@[simp] theorem setI_SP (a : Word) : (s.setI a).SP = s.SP := rfl
@[simp] theorem setI_stack (a : Word) : (s.setI a).stack = s.stack := rfl
@[simp] theorem setI_DT (a : Word) : (s.setI a).DT = s.DT := rfl
@[simp] theorem setI_ST (a : Word) : (s.setI a).ST = s.ST := rfl
@[simp] theorem setI_pix (a : Word) : (s.setI a).pix = s.pix := rfl
@[simp] theorem setI_key (a : Word) : (s.setI a).key = s.key := rfl
@[simp] theorem setI_run (a : Word) : (s.setI a).run = s.run := rfl
@[simp] theorem setI_mem (a : Word) : (s.setI a).mem = s.mem := rfl
@[simp] theorem setI_cfg (a : Word) : (s.setI a).cfg = s.cfg := rfl
@[simp] theorem setI_draws (a : Word) : (s.setI a).draws = s.draws := rfl
@[simp] theorem setI_loadPhase (a : Word) : (s.setI a).loadPhase = s.loadPhase := rfl

@[simp] theorem setPc_V (a : Word) : (s.setPc a).V = s.V := rfl
@[simp] theorem setPc_I (a : Word) : (s.setPc a).I = s.I := rfl
@[simp] theorem setPc_pc (a : Word) : (s.setPc a).pc = a := rfl
@[simp] theorem setPc_SP (a : Word) : (s.setPc a).SP = s.SP := rfl
@[simp] theorem setPc_stack (a : Word) : (s.setPc a).stack = s.stack := rfl
@[simp] theorem setPc_DT (a : Word) : (s.setPc a).DT = s.DT := rfl
@[simp] theorem setPc_ST (a : Word) : (s.setPc a).ST = s.ST := rfl
@[simp] theorem setPc_pix (a : Word) : (s.setPc a).pix = s.pix := rfl
@[simp] theorem setPc_key (a : Word) : (s.setPc a).key = s.key := rfl
@[simp] theorem setPc_run (a : Word) : (s.setPc a).run = s.run := rfl
@[simp] theorem setPc_mem (a : Word) : (s.setPc a).mem = s.mem := rfl
@[simp] theorem setPc_cfg (a : Word) : (s.setPc a).cfg = s.cfg := rfl
@[simp] theorem setPc_draws (a : Word) : (s.setPc a).draws = s.draws := rfl
@[simp] theorem setPc_loadPhase (a : Word) : (s.setPc a).loadPhase = s.loadPhase := rfl

@[simp] theorem setDT_V (b : Byte) : (s.setDT b).V = s.V := rfl
@[simp] theorem setDT_I (b : Byte) : (s.setDT b).I = s.I := rfl
@[simp] theorem setDT_pc (b : Byte) : (s.setDT b).pc = s.pc := rfl
@[simp] theorem setDT_SP (b : Byte) : (s.setDT b).SP = s.SP := rfl
@[simp] theorem setDT_stack (b : Byte) : (s.setDT b).stack = s.stack := rfl
@[simp] theorem setDT_DT (b : Byte) : (s.setDT b).DT = b := rfl
@[simp] theorem setDT_ST (b : Byte) : (s.setDT b).ST = s.ST := rfl
@[simp] theorem setDT_pix (b : Byte) : (s.setDT b).pix = s.pix := rfl
@[simp] theorem setDT_key (b : Byte) : (s.setDT b).key = s.key := rfl
@[simp] theorem setDT_run (b : Byte) : (s.setDT b).run = s.run := rfl
@[simp] theorem setDT_mem (b : Byte) : (s.setDT b).mem = s.mem := rfl
@[simp] theorem setDT_cfg (b : Byte) : (s.setDT b).cfg = s.cfg := rfl
@[simp] theorem setDT_draws (b : Byte) : (s.setDT b).draws = s.draws := rfl
@[simp] theorem setDT_loadPhase (b : Byte) : (s.setDT b).loadPhase = s.loadPhase := rfl

@[simp] theorem setST_V (b : Byte) : (s.setST b).V = s.V := rfl
@[simp] theorem setST_I (b : Byte) : (s.setST b).I = s.I := rfl
@[simp] theorem setST_pc (b : Byte) : (s.setST b).pc = s.pc := rfl
@[simp] theorem setST_SP (b : Byte) : (s.setST b).SP = s.SP := rfl
@[simp] theorem setST_stack (b : Byte) : (s.setST b).stack = s.stack := rfl
@[simp] theorem setST_DT (b : Byte) : (s.setST b).DT = s.DT := rfl
@[simp] theorem setST_ST (b : Byte) : (s.setST b).ST = b := rfl
@[simp] theorem setST_pix (b : Byte) : (s.setST b).pix = s.pix := rfl
@[simp] theorem setST_key (b : Byte) : (s.setST b).key = s.key := rfl
@[simp] theorem setST_run (b : Byte) : (s.setST b).run = s.run := rfl
@[simp] theorem setST_mem (b : Byte) : (s.setST b).mem = s.mem := rfl
@[simp] theorem setST_cfg (b : Byte) : (s.setST b).cfg = s.cfg := rfl
@[simp] theorem setST_draws (b : Byte) : (s.setST b).draws = s.draws := rfl
@[simp] theorem setST_loadPhase (b : Byte) : (s.setST b).loadPhase = s.loadPhase := rfl

@[simp] theorem setPix_V (d : Display) : (s.setPix d).V = s.V := rfl
@[simp] theorem setPix_I (d : Display) : (s.setPix d).I = s.I := rfl
@[simp] theorem setPix_pc (d : Display) : (s.setPix d).pc = s.pc := rfl
@[simp] theorem setPix_SP (d : Display) : (s.setPix d).SP = s.SP := rfl
@[simp] theorem setPix_stack (d : Display) : (s.setPix d).stack = s.stack := rfl
@[simp] theorem setPix_DT (d : Display) : (s.setPix d).DT = s.DT := rfl
@[simp] theorem setPix_ST (d : Display) : (s.setPix d).ST = s.ST := rfl
@[simp] theorem setPix_pix (d : Display) : (s.setPix d).pix = d := rfl
@[simp] theorem setPix_key (d : Display) : (s.setPix d).key = s.key := rfl
@[simp] theorem setPix_run (d : Display) : (s.setPix d).run = s.run := rfl
@[simp] theorem setPix_mem (d : Display) : (s.setPix d).mem = s.mem := rfl
@[simp] theorem setPix_cfg (d : Display) : (s.setPix d).cfg = s.cfg := rfl
@[simp] theorem setPix_draws (d : Display) : (s.setPix d).draws = s.draws := rfl
@[simp] theorem setPix_loadPhase (d : Display) : (s.setPix d).loadPhase = s.loadPhase := rfl

@[simp] theorem setKeys_V (k : Keys) : (s.setKeys k).V = s.V := rfl
@[simp] theorem setKeys_I (k : Keys) : (s.setKeys k).I = s.I := rfl
@[simp] theorem setKeys_pc (k : Keys) : (s.setKeys k).pc = s.pc := rfl
@[simp] theorem setKeys_SP (k : Keys) : (s.setKeys k).SP = s.SP := rfl
@[simp] theorem setKeys_stack (k : Keys) : (s.setKeys k).stack = s.stack := rfl
@[simp] theorem setKeys_DT (k : Keys) : (s.setKeys k).DT = s.DT := rfl
@[simp] theorem setKeys_ST (k : Keys) : (s.setKeys k).ST = s.ST := rfl
@[simp] theorem setKeys_pix (k : Keys) : (s.setKeys k).pix = s.pix := rfl
@[simp] theorem setKeys_key (k : Keys) : (s.setKeys k).key = k := rfl
@[simp] theorem setKeys_run (k : Keys) : (s.setKeys k).run = s.run := rfl
@[simp] theorem setKeys_mem (k : Keys) : (s.setKeys k).mem = s.mem := rfl
@[simp] theorem setKeys_cfg (k : Keys) : (s.setKeys k).cfg = s.cfg := rfl
@[simp] theorem setKeys_draws (k : Keys) : (s.setKeys k).draws = s.draws := rfl
@[simp] theorem setKeys_loadPhase (k : Keys) : (s.setKeys k).loadPhase = s.loadPhase := rfl

@[simp] theorem setRun_V (r : RunState) : (s.setRun r).V = s.V := rfl
@[simp] theorem setRun_I (r : RunState) : (s.setRun r).I = s.I := rfl
@[simp] theorem setRun_pc (r : RunState) : (s.setRun r).pc = s.pc := rfl
@[simp] theorem setRun_SP (r : RunState) : (s.setRun r).SP = s.SP := rfl
@[simp] theorem setRun_stack (r : RunState) : (s.setRun r).stack = s.stack := rfl
@[simp] theorem setRun_DT (r : RunState) : (s.setRun r).DT = s.DT := rfl
@[simp] theorem setRun_ST (r : RunState) : (s.setRun r).ST = s.ST := rfl
@[simp] theorem setRun_pix (r : RunState) : (s.setRun r).pix = s.pix := rfl
@[simp] theorem setRun_key (r : RunState) : (s.setRun r).key = s.key := rfl
@[simp] theorem setRun_run (r : RunState) : (s.setRun r).run = r := rfl
@[simp] theorem setRun_mem (r : RunState) : (s.setRun r).mem = s.mem := rfl
@[simp] theorem setRun_cfg (r : RunState) : (s.setRun r).cfg = s.cfg := rfl
@[simp] theorem setRun_draws (r : RunState) : (s.setRun r).draws = s.draws := rfl
@[simp] theorem setRun_loadPhase (r : RunState) : (s.setRun r).loadPhase = s.loadPhase := rfl

@[simp] theorem setStack_V (p : Fin 17) (e : Vector Word 16) : (s.setStack p e).V = s.V := rfl
@[simp] theorem setStack_I (p : Fin 17) (e : Vector Word 16) : (s.setStack p e).I = s.I := rfl
@[simp] theorem setStack_pc (p : Fin 17) (e : Vector Word 16) : (s.setStack p e).pc = s.pc := rfl
@[simp] theorem setStack_SP (p : Fin 17) (e : Vector Word 16) : (s.setStack p e).SP = p := rfl
@[simp] theorem setStack_stack (p : Fin 17) (e : Vector Word 16) : (s.setStack p e).stack = e := rfl
@[simp] theorem setStack_DT (p : Fin 17) (e : Vector Word 16) : (s.setStack p e).DT = s.DT := rfl
@[simp] theorem setStack_ST (p : Fin 17) (e : Vector Word 16) : (s.setStack p e).ST = s.ST := rfl
@[simp] theorem setStack_pix (p : Fin 17) (e : Vector Word 16) : (s.setStack p e).pix = s.pix := rfl
@[simp] theorem setStack_key (p : Fin 17) (e : Vector Word 16) : (s.setStack p e).key = s.key := rfl
@[simp] theorem setStack_run (p : Fin 17) (e : Vector Word 16) : (s.setStack p e).run = s.run := rfl
@[simp] theorem setStack_mem (p : Fin 17) (e : Vector Word 16) : (s.setStack p e).mem = s.mem := rfl
@[simp] theorem setStack_cfg (p : Fin 17) (e : Vector Word 16) : (s.setStack p e).cfg = s.cfg := rfl
@[simp] theorem setStack_draws (p : Fin 17) (e : Vector Word 16) : (s.setStack p e).draws = s.draws := rfl
@[simp] theorem setStack_loadPhase (p : Fin 17) (e : Vector Word 16) : (s.setStack p e).loadPhase = s.loadPhase := rfl

@[simp] theorem setMem_V (m : Memory) : (s.setMem m).V = s.V := rfl
@[simp] theorem setMem_I (m : Memory) : (s.setMem m).I = s.I := rfl
@[simp] theorem setMem_pc (m : Memory) : (s.setMem m).pc = s.pc := rfl
@[simp] theorem setMem_SP (m : Memory) : (s.setMem m).SP = s.SP := rfl
@[simp] theorem setMem_stack (m : Memory) : (s.setMem m).stack = s.stack := rfl
@[simp] theorem setMem_DT (m : Memory) : (s.setMem m).DT = s.DT := rfl
@[simp] theorem setMem_ST (m : Memory) : (s.setMem m).ST = s.ST := rfl
@[simp] theorem setMem_pix (m : Memory) : (s.setMem m).pix = s.pix := rfl
@[simp] theorem setMem_key (m : Memory) : (s.setMem m).key = s.key := rfl
@[simp] theorem setMem_run (m : Memory) : (s.setMem m).run = s.run := rfl
@[simp] theorem setMem_mem (m : Memory) : (s.setMem m).mem = m := rfl
@[simp] theorem setMem_cfg (m : Memory) : (s.setMem m).cfg = s.cfg := rfl
@[simp] theorem setMem_draws (m : Memory) : (s.setMem m).draws = s.draws := rfl
@[simp] theorem setMem_loadPhase (m : Memory) : (s.setMem m).loadPhase = s.loadPhase := rfl

@[simp] theorem tookDraw_V : s.tookDraw.V = s.V := rfl
@[simp] theorem tookDraw_I : s.tookDraw.I = s.I := rfl
@[simp] theorem tookDraw_pc : s.tookDraw.pc = s.pc := rfl
@[simp] theorem tookDraw_SP : s.tookDraw.SP = s.SP := rfl
@[simp] theorem tookDraw_stack : s.tookDraw.stack = s.stack := rfl
@[simp] theorem tookDraw_DT : s.tookDraw.DT = s.DT := rfl
@[simp] theorem tookDraw_ST : s.tookDraw.ST = s.ST := rfl
@[simp] theorem tookDraw_pix : s.tookDraw.pix = s.pix := rfl
@[simp] theorem tookDraw_key : s.tookDraw.key = s.key := rfl
@[simp] theorem tookDraw_run : s.tookDraw.run = s.run := rfl
@[simp] theorem tookDraw_mem : s.tookDraw.mem = s.mem := rfl
@[simp] theorem tookDraw_cfg : s.tookDraw.cfg = s.cfg := rfl
@[simp] theorem tookDraw_draws : s.tookDraw.draws = s.draws + 1 := rfl
@[simp] theorem tookDraw_loadPhase : s.tookDraw.loadPhase = s.loadPhase := rfl

@[simp] theorem setLoadPhase_V (p : LoadPhase) : (s.setLoadPhase p).V = s.V := rfl
@[simp] theorem setLoadPhase_I (p : LoadPhase) : (s.setLoadPhase p).I = s.I := rfl
@[simp] theorem setLoadPhase_pc (p : LoadPhase) : (s.setLoadPhase p).pc = s.pc := rfl
@[simp] theorem setLoadPhase_SP (p : LoadPhase) : (s.setLoadPhase p).SP = s.SP := rfl
@[simp] theorem setLoadPhase_stack (p : LoadPhase) : (s.setLoadPhase p).stack = s.stack := rfl
@[simp] theorem setLoadPhase_DT (p : LoadPhase) : (s.setLoadPhase p).DT = s.DT := rfl
@[simp] theorem setLoadPhase_ST (p : LoadPhase) : (s.setLoadPhase p).ST = s.ST := rfl
@[simp] theorem setLoadPhase_pix (p : LoadPhase) : (s.setLoadPhase p).pix = s.pix := rfl
@[simp] theorem setLoadPhase_key (p : LoadPhase) : (s.setLoadPhase p).key = s.key := rfl
@[simp] theorem setLoadPhase_run (p : LoadPhase) : (s.setLoadPhase p).run = s.run := rfl
@[simp] theorem setLoadPhase_mem (p : LoadPhase) : (s.setLoadPhase p).mem = s.mem := rfl
@[simp] theorem setLoadPhase_cfg (p : LoadPhase) : (s.setLoadPhase p).cfg = s.cfg := rfl
@[simp] theorem setLoadPhase_draws (p : LoadPhase) : (s.setLoadPhase p).draws = s.draws := rfl
@[simp] theorem setLoadPhase_loadPhase (p : LoadPhase) : (s.setLoadPhase p).loadPhase = p := rfl

/-! The view that an executing instruction has of where it was fetched from, under updates that leave pc. -/

@[simp] theorem writeV_fetchedFrom (r : Reg) (b : Byte) : (s.writeV r b).fetchedFrom = s.fetchedFrom := rfl
@[simp] theorem setI_fetchedFrom (a : Word) : (s.setI a).fetchedFrom = s.fetchedFrom := rfl
@[simp] theorem setDT_fetchedFrom (b : Byte) : (s.setDT b).fetchedFrom = s.fetchedFrom := rfl
@[simp] theorem setST_fetchedFrom (b : Byte) : (s.setST b).fetchedFrom = s.fetchedFrom := rfl
@[simp] theorem setPix_fetchedFrom (d : Display) : (s.setPix d).fetchedFrom = s.fetchedFrom := rfl
@[simp] theorem setKeys_fetchedFrom (k : Keys) : (s.setKeys k).fetchedFrom = s.fetchedFrom := rfl
@[simp] theorem setRun_fetchedFrom (r : RunState) : (s.setRun r).fetchedFrom = s.fetchedFrom := rfl
@[simp] theorem setStack_fetchedFrom (p : Fin 17) (e : Vector Word 16) : (s.setStack p e).fetchedFrom = s.fetchedFrom := rfl
@[simp] theorem setMem_fetchedFrom (m : Memory) : (s.setMem m).fetchedFrom = s.fetchedFrom := rfl
@[simp] theorem tookDraw_fetchedFrom : s.tookDraw.fetchedFrom = s.fetchedFrom := rfl
@[simp] theorem setLoadPhase_fetchedFrom (p : LoadPhase) : (s.setLoadPhase p).fetchedFrom = s.fetchedFrom := rfl

end Sys2Proof.Machine.State
end

