-- ==== Sys2Proof/Laws/Ops.lean ====
section
/-! SUPPORT. What each shared operation can do, said once: registers, bytes of memory, MemRead and MemWrite, the
multi-byte accesses, the stack, the operand checks, the write back of the ALU and the drawing of rows. -/

namespace Sys2Proof.Machine

variable {s t : State}

/-! ### Registers -/

@[simp] theorem readV_writeV_same (r : Reg) (b : Byte) : (s.writeV r b).readV r = b := by
  simp [State.readV, State.writeV]

theorem readV_writeV (r q : Reg) (b : Byte) : (s.writeV r b).readV q = if q = r then b else s.readV q := by
  simp only [State.readV, State.writeV, Vector.getElem_set, Fin.ext_iff, eq_comm]

@[simp] theorem readV_writeV_other {r q : Reg} (b : Byte) (h : q ≠ r) : (s.writeV r b).readV q = s.readV q := by
  rw [readV_writeV, if_neg h]

/-- Register files that read alike are the same. -/
theorem regs_ext {s t : State} (h : ∀ r, s.readV r = t.readV r) : s.V = t.V :=
  Vector.ext fun i hi => h ⟨i, hi⟩

/-! ### Bytes of memory -/

theorem byteAt_putByte_same (h : Memory.wf s.cfg s.mem) (a : Nat) (b : Byte) : (s.putByte a b).byteAt a = b :=
  Memory.read_write_same s.cfg h a b

@[simp] theorem byteAt_putByte_other {a x : Nat} (b : Byte) (h : x ≠ a) : (s.putByte a b).byteAt x = s.byteAt x :=
  Memory.read_write_other s.cfg b (Ne.symm h)

theorem putByte_eq (a : Nat) (b : Byte) : s.putByte a b = { s with mem := (s.putByte a b).mem } := rfl

theorem putByte_wf (h : Memory.wf s.cfg s.mem) {a : Nat} (ha : a < memSize) (b : Byte) :
    Memory.wf (s.putByte a b).cfg (s.putByte a b).mem :=
  Memory.write_wf s.cfg h ha b

/-! ### MemRead and MemWrite (20_memory.md R51, R52) -/

theorem memRead_ok {a : Nat} (h : a < memSize) : s.memRead a = .ok (s.byteAt a) := if_neg (by omega)

theorem memRead_error {a : Nat} (h : memSize ≤ a) : s.memRead a = .error (outOfBoundsAt a) := if_pos h

theorem memWrite_ok {a : Nat} (h : protectedLimit ≤ a) (h' : a < memSize) (b : Byte) :
    s.memWrite a b = .ok (s.putByte a b) := by
  unfold State.memWrite
  rw [if_neg (by omega), if_neg (by omega)]

theorem memWrite_protected {a : Nat} (h : a < protectedLimit) (b : Byte) :
    s.memWrite a b = .error (protectedAt a) := if_pos h

theorem memWrite_outOfBounds {a : Nat} (h : memSize ≤ a) (b : Byte) :
    s.memWrite a b = .error (outOfBoundsAt a) := by
  unfold State.memWrite
  rw [if_neg (by simp only [memSize, protectedLimit] at *; omega), if_pos h]

/-! ### Stores of several bytes (20_memory.md R58, R59) -/

/-- All that a store can do: it replaces memory, keeps its form, and leaves every byte outside the stored ones. Of
a store that raised, the failing address is the first below 0x200 or above 0xFFF. -/
theorem storeBytes_cases (bs : List Byte) (s : State) (a : Nat) :
    (s.storeBytes a bs).1 = { s with mem := (s.storeBytes a bs).1.mem } ∧
    (Memory.wf s.cfg s.mem → Memory.wf s.cfg (s.storeBytes a bs).1.mem) ∧
    (∀ p ∈ (s.storeBytes a bs).1.mem, p ∈ s.mem ∨ protectedLimit ≤ p.1) ∧
    (∀ x, (x < a ∨ a + bs.length ≤ x ∨ memSize ≤ x) → (s.storeBytes a bs).1.byteAt x = s.byteAt x) ∧
    (∀ r, (s.storeBytes a bs).2 = some r →
      (∃ x, x < protectedLimit ∧ r = protectedAt x) ∨ (∃ x, memSize ≤ x ∧ r = outOfBoundsAt x)) := by
  induction bs generalizing s a with
  | nil => exact ⟨rfl, id, fun p hp => .inl hp, fun _ _ => rfl, fun r hr => nomatch hr⟩
  | cons b bs ih =>
    by_cases h1 : a < protectedLimit
    · simp only [State.storeBytes, memWrite_protected h1]
      exact ⟨trivial, id, fun p hp => .inl hp, fun _ _ => trivial, fun r hr => .inl ⟨a, h1, (Option.some.inj hr).symm⟩⟩
    by_cases h2 : memSize ≤ a
    · simp only [State.storeBytes, memWrite_outOfBounds h2]
      exact ⟨trivial, id, fun p hp => .inl hp, fun _ _ => trivial, fun r hr => .inr ⟨a, h2, (Option.some.inj hr).symm⟩⟩
    simp only [State.storeBytes, memWrite_ok (Nat.le_of_not_lt h1) (Nat.lt_of_not_le h2)]
    obtain ⟨i1, i2, i3, i4, i5⟩ := ih (s.putByte a b) (a + 1)
    refine ⟨i1, fun h => i2 (putByte_wf h (Nat.lt_of_not_le h2) b), fun p hp => ?_, fun x hx => ?_, i5⟩
    · rcases i3 p hp with h | h
      · rcases Memory.mem_write s.cfg h with h | ⟨rfl, -⟩
        · exact .inl h
        · exact .inr (Nat.le_of_not_lt h1)
      · exact .inr h
    · rw [List.length_cons] at hx
      rw [i4 x (by omega), byteAt_putByte_other b (by omega)]

/-- A store from a writable address on puts each byte that has an address, and raises OutOfBounds at the first that has
none. -/
theorem storeBytes_spec {bs : List Byte} {s : State} {a : Nat} (hlo : protectedLimit ≤ a) :
    (s.storeBytes a bs).2 =
      (if bs.length = 0 ∨ a + bs.length ≤ memSize then none else some (outOfBoundsAt (max a memSize))) ∧
    (Memory.wf s.cfg s.mem → ∀ k (h : k < bs.length), a + k < memSize →
      (s.storeBytes a bs).1.byteAt (a + k) = bs[k]) := by
  induction bs generalizing s a with
  | nil => simp [State.storeBytes]
  | cons b bs ih =>
    by_cases hm : memSize ≤ a
    · simp only [State.storeBytes, memWrite_outOfBounds hm, List.length_cons]
      refine ⟨?_, fun _ k _ hk => absurd hk (by omega)⟩
      rw [if_neg (by omega), Nat.max_eq_left hm]
    simp only [State.storeBytes, memWrite_ok hlo (Nat.lt_of_not_le hm), List.length_cons]
    obtain ⟨i1, i2⟩ := ih (s := s.putByte a b) (a := a + 1) (Nat.le_succ_of_le hlo)
    refine ⟨?_, fun hwf k hk hkm => ?_⟩
    · rw [i1]
      by_cases h : a + 1 + bs.length ≤ memSize
      · rw [if_pos (.inr h), if_pos (.inr (by omega))]
      · by_cases h0 : bs.length = 0
        · rw [if_pos (.inl h0), if_pos (.inr (by omega))]
        · rw [if_neg (by omega), if_neg (by omega), show max (a + 1) memSize = max a memSize by omega]
    · cases k with
      | zero =>
        rw [(storeBytes_cases bs _ _).2.2.2.1 (a + 0) (by omega)]
        exact byteAt_putByte_same hwf a b
      | succ k =>
        have := i2 (putByte_wf hwf (Nat.lt_of_not_le hm) b) k (by simpa using hk) (by omega)
        simpa [Nat.add_assoc, Nat.add_comm 1] using this

/-- A store that starts in the reserved region raises at its first byte, with nothing stored. -/
theorem storeBytes_protected {bs : List Byte} {a : Nat} (h : a < protectedLimit) (hb : bs ≠ []) :
    s.storeBytes a bs = (s, some (protectedAt a)) := by
  cases bs with
  | nil => exact absurd rfl hb
  | cons b bs => simp only [State.storeBytes, memWrite_protected h]

/-! ### Loads of several registers (20_memory.md R58, R59) -/

/-- All that a load can do: it replaces registers of its list, and a raise is OutOfBounds. -/
theorem loadRegs_cases (rs : List Reg) (s : State) (a : Nat) :
    (s.loadRegs a rs).1 = { s with V := (s.loadRegs a rs).1.V } ∧
    (∀ q, q ∉ rs → (s.loadRegs a rs).1.readV q = s.readV q) ∧
    (∀ r, (s.loadRegs a rs).2 = some r → ∃ x, memSize ≤ x ∧ r = outOfBoundsAt x) := by
  induction rs generalizing s a with
  | nil => simp [State.loadRegs]
  | cons r rs ih =>
    by_cases h : memSize ≤ a
    · simp only [State.loadRegs, memRead_error h]
      exact ⟨trivial, fun _ _ => trivial, fun e he => ⟨a, h, (Option.some.inj he).symm⟩⟩
    · simp only [State.loadRegs, memRead_ok (Nat.lt_of_not_le h)]
      obtain ⟨i1, i2, i3⟩ := ih (s.writeV r (s.byteAt a)) (a + 1)
      refine ⟨i1, fun q hq => ?_, i3⟩
      rw [List.mem_cons, not_or] at hq
      rw [i2 q hq.2, readV_writeV_other _ hq.1]

/-- A load fills each register of a list without repeats whose byte has an address, and raises OutOfBounds at the first
that has none. -/
theorem loadRegs_spec {rs : List Reg} {s : State} {a : Nat} (hn : rs.Nodup) :
    (s.loadRegs a rs).2 =
      (if rs.length = 0 ∨ a + rs.length ≤ memSize then none else some (outOfBoundsAt (max a memSize))) ∧
    ∀ k (hk : k < rs.length), (s.loadRegs a rs).1.readV rs[k] =
      if a + k < memSize then s.byteAt (a + k) else s.readV rs[k] := by
  induction rs generalizing s a with
  | nil => simp [State.loadRegs]
  | cons r rs ih =>
    obtain ⟨hr, hn⟩ := List.nodup_cons.1 hn
    by_cases hm : memSize ≤ a
    · simp only [State.loadRegs, memRead_error hm, List.length_cons]
      refine ⟨?_, fun k hk => ?_⟩
      · rw [if_neg (by omega), Nat.max_eq_left hm]
      · rw [if_neg (by omega)]
    simp only [State.loadRegs, memRead_ok (Nat.lt_of_not_le hm), List.length_cons]
    obtain ⟨i1, i2⟩ := ih (s := s.writeV r (s.byteAt a)) (a := a + 1) hn
    refine ⟨?_, fun k hk => ?_⟩
    · rw [i1]
      by_cases h : a + 1 + rs.length ≤ memSize
      · rw [if_pos (.inr h), if_pos (.inr (by omega))]
      · by_cases h0 : rs.length = 0
        · rw [if_pos (.inl h0), if_pos (.inr (by omega))]
        · rw [if_neg (by omega), if_neg (by omega), show max (a + 1) memSize = max a memSize by omega]
    · cases k with
      | zero => simp [(loadRegs_cases rs _ _).2.1 r hr, Nat.lt_of_not_le hm]
      | succ k =>
        have hk' : k < rs.length := by simpa using hk
        have hne : rs[k] ≠ r := fun h => hr (h ▸ List.getElem_mem hk')
        have := i2 k hk'
        simpa [State.byteAt, Nat.add_assoc, Nat.add_comm 1, readV_writeV_other _ hne] using this

/-- V0..Vx are the registers up to x, each once, the k-th being Vk. -/
theorem regsUpTo_length (x : Reg) : (regsUpTo x).length = x.val + 1 := by
  simp only [regsUpTo, allRegs, List.length_take, List.length_cons, List.length_nil]
  omega

theorem regsUpTo_nodup (x : Reg) : (regsUpTo x).Nodup := by
  revert x; decide

theorem regsUpTo_get (x : Reg) (k : Nat) (h : k < (regsUpTo x).length) :
    (regsUpTo x)[k] = ⟨k, by have := regsUpTo_length x; omega⟩ := by
  have hall : ∀ j : Fin 16, allRegs[j.val]'(by simp [allRegs]) = j := by decide
  have hk : k < 16 := by have := regsUpTo_length x; omega
  simp only [regsUpTo, List.getElem_take]
  exact hall ⟨k, hk⟩

theorem mem_regsUpTo (x q : Reg) : q ∈ regsUpTo x ↔ q ≤ x := by
  revert x q; decide

/-! ### The stack (10_state.md R29) -/

theorem push_ok (a : Word) (h : s.SP.val < 16) :
    s.push a = .ok (s.setStack ⟨s.SP.val + 1, by omega⟩ (s.stack.set s.SP.val a)) := dif_pos h

theorem push_error (a : Word) (h : ¬ s.SP.val < 16) : s.push a = .error (bareRaise .stackOverflow) := dif_neg h

theorem pop_error (h : s.SP.val = 0) : s.pop = .error (bareRaise .stackUnderflow) := dif_pos h

theorem pop_ok (h : s.SP.val ≠ 0) :
    s.pop = .ok (s.stack[s.SP.val - 1], s.setStack ⟨s.SP.val - 1, by omega⟩ s.stack) := dif_neg h

/-! ### Operand checks -/

theorem digitOperand_ok {v : Byte} (h : v.toNat ≤ 15) : digitOperand v = .ok ⟨v.toNat, by omega⟩ :=
  dif_neg (by omega)

theorem digitOperand_error {v : Byte} (h : 15 < v.toNat) :
    digitOperand v = .error { kind := .operandOutOfRange, addr := none, value := some v } := dif_pos h

/-! ### The write back of an ALU instruction (42_alu.md R123) -/

/-- All that a write back can do: it replaces registers, and takes a free value only under `any` with x = F. -/
theorem writeBack_cases (x : Reg) (rf : Byte × Bool) :
    s.writeBack x rf = { s with V := (s.writeBack x rf).V, draws := (s.writeBack x rf).draws } ∧
    (∀ q, q ≠ x → q ≠ VF → (s.writeBack x rf).readV q = s.readV q) ∧
    (x ≠ VF → (s.writeBack x rf).readV x = rf.1 ∧ (s.writeBack x rf).readV VF = flagByte rf.2) ∧
    ((s.writeBack x rf).draws = if x = VF ∧ s.cfg.aluVfDest = .any then s.draws + 1 else s.draws) := by
  have hs : ∀ q : Reg, q ≠ x → q ≠ VF → ∀ b b' : Byte, ((s.writeV VF b).writeV x b').readV q = s.readV q :=
    fun q h1 h2 b b' => by rw [readV_writeV_other _ h1, readV_writeV_other _ h2]
  unfold State.writeBack
  cases h : s.cfg.aluVfDest with
  | resultWins =>
    refine ⟨rfl, fun q h1 h2 => hs q h1 h2 _ _, fun hx => ⟨by simp, ?_⟩, by simp⟩
    simp only
    rw [readV_writeV_other _ (Ne.symm hx), readV_writeV_same]
  | flagWins =>
    refine ⟨rfl, fun q h1 h2 => ?_, fun hx => ⟨?_, by simp⟩, by simp⟩
    · simp only
      rw [readV_writeV_other _ h2, readV_writeV_other _ h1]
    · simp only
      rw [readV_writeV_other _ hx, readV_writeV_same]
  | any =>
    by_cases hx : x = VF
    · subst hx
      simp only [if_true, true_and]
      refine ⟨rfl, fun q h1 _ => ?_, fun hc => absurd rfl hc, rfl⟩
      show (s.writeV VF _).readV q = _
      rw [readV_writeV_other _ h1]
    · simp only [hx, false_and, if_false]
      refine ⟨rfl, fun q h1 h2 => hs q h1 h2 _ _, fun _ => ⟨by simp, ?_⟩, rfl⟩
      rw [readV_writeV_other _ (Ne.symm hx), readV_writeV_same]

/-! ### The display -/

/-- A toggle flips its pixel and no other, and reports what it was (44_display.md R170). -/
theorem pixelAt_togglePixel (d : Display) (px qx : Fin 64) (py qy : Fin 32) :
    pixelAt (togglePixel d px py).2 qx qy =
      if qx = px ∧ qy = py then !pixelAt d px py else pixelAt d qx qy := by
  simp only [pixelAt, togglePixel, Vector.getElem_set]
  by_cases h : qy = py
  · subst h
    by_cases h' : qx = px
    · subst h'; simp
    · simp [h', Fin.val_ne_of_ne (Ne.symm h')]
  · simp [h, Fin.val_ne_of_ne (Ne.symm h)]

/-- Displays that show alike are the same. -/
theorem display_ext {d d' : Display} (h : ∀ px py, pixelAt d px py = pixelAt d' px py) : d = d' :=
  Vector.ext fun j hj => Vector.ext fun i hi => h ⟨i, hi⟩ ⟨j, hj⟩

/-- The rows that fit in memory are all drawn. -/
theorem drawRows_ok {px py : Nat} {k r : Nat} {acc : Bool × Display} (h : k = 0 ∨ s.I.toNat + (r + k) ≤ memSize) :
    (drawRows s px py k r acc).2 = none := by
  induction k generalizing r acc with
  | zero => rfl
  | succ k ih =>
    simp only [drawRows, memRead_ok (show s.I.toNat + r < memSize by omega)]
    exact ih (by omega)

/-- A raise of a draw is OutOfBounds. -/
theorem drawRows_error {px py : Nat} {k r : Nat} {acc : Bool × Display} {e : Raise}
    (h : (drawRows s px py k r acc).2 = some e) : ∃ x, memSize ≤ x ∧ e = outOfBoundsAt x := by
  induction k generalizing r acc with
  | zero => simp [drawRows] at h
  | succ k ih =>
    by_cases hr : memSize ≤ s.I.toNat + r
    · simp only [drawRows, memRead_error hr] at h
      exact ⟨_, hr, (Option.some.inj h).symm⟩
    · simp only [drawRows, memRead_ok (Nat.lt_of_not_le hr)] at h
      exact ih h

/-! ### Fetching (30_encoding.md R80) -/

theorem fetch_ok (h : s.fetchable = true) :
    fetch s = .ok (wordOfBytes (s.byteAt s.pc.toNat) (s.byteAt (s.pc.toNat + 1))) := by
  simp only [State.fetchable, Bool.and_eq_true, decide_eq_true_eq, Bool.not_eq_true'] at h
  simp only [fetch, h.2, memRead_ok (show s.pc.toNat < memSize by omega), memRead_ok h.1, Bool.false_eq_true, if_false]

end Sys2Proof.Machine
end

