-- ==== Sys2Proof/Laws/Exec.lean ====
section
/-! SUPPORT. Everything an instruction can do and everything a step can do, said once: the next state of `exec` is one of
a few updates (`exec_effect`), and that of `step` is a poll, a fetch fault, an unknown word or an instruction
(`step_cases`). -/

namespace Sys2Proof.Machine

/-! ### The ends of a rule -/

theorem finish_none (i : Instr) {p : State × Option Raise} (h : p.2 = none) : finish i p = .next p.1 := by
  obtain ⟨s, r⟩ := p
  subst h
  rfl

theorem finish_some (i : Instr) {p : State × Option Raise} {r : Raise} (h : p.2 = some r) :
    finish i p = .next (faultedBy i r.kind r.addr r.value p.1) := by
  obtain ⟨s, q⟩ := p
  subst h
  rfl

/-- The instructions that take a free value. -/
abbrev takesDraw : List Mnemonic := [.RND, .ADD_REG, .SUB, .SHR, .SUBN, .SHL]

/-- The next states of an instruction, by the state that it changes. -/
inductive Effect (i : Instr) (s : State) : State → Prop
  | regs (t : State) (h : t = { s with V := t.V, draws := t.draws })
      (hq : ∀ q, mayWriteV i q = false → t.readV q = s.readV q)
      (hd : t.draws ≠ s.draws → i.mnemonic ∈ takesDraw) (hpc : ∀ A, pcAfter A s i = A + 2) : Effect i s t
  | skip (hm : i.mnemonic ∈ [Mnemonic.SE_IMM, .SNE_IMM, .SE_REG, .SNE_REG, .SKP, .SKNP])
      (hpc : ∀ A, pcAfter A s i = if skipTaken s i then A + 4 else A + 2) : Effect i s (s.skipIf (skipTaken s i))
  | jump (a : Word) (hm : i.mnemonic ∈ [Mnemonic.JP, .JP_V0]) (ha : a.toNat ≤ 0x10FE)
      (hpc : ∀ A, pcAfter A s i = a.toNat) : Effect i s (s.setPc a)
  | call (nnn : Addr12) (hi : i = .call nnn) (h : s.SP.val < 16) :
      Effect i s ((s.setStack ⟨s.SP.val + 1, by omega⟩ (s.stack.set s.SP.val s.pc)).setPc (addrOperand nnn))
  | ret (d : Nibble) (hi : i = .ret d) (h : s.SP.val ≠ 0) :
      Effect i s ((s.setStack ⟨s.SP.val - 1, by omega⟩ s.stack).setPc s.stack[s.SP.val - 1])
  | index (a : Word) (hm : i.mnemonic ∈ [Mnemonic.LD_I, .ADD_I, .LD_F]) (hpc : ∀ A, pcAfter A s i = A + 2) :
      Effect i s (s.setI a)
  | draw (d : Display) (b : Byte) (x y : Reg) (n : Nibble) (hi : i = .drw x y n) :
      Effect i s ((s.setPix d).writeV VF b)
  | clear (d : Nibble) (hi : i = .cls d) : Effect i s (s.setPix blankDisplay)
  | wait (x : Reg) (hi : i = .ldVxK x) : Effect i s (s.setRun (.awaitingKey x s.key))
  | delay (x : Reg) (hi : i = .ldDt x) : Effect i s (s.setDT (s.readV x))
  | sound (x : Reg) (hi : i = .ldSt x) : Effect i s (s.setST (s.readV x))
  | store (a : Nat) (bs : List Byte) (hm : i.mnemonic ∈ [Mnemonic.LD_B, .LD_MEM_VX])
      (hpc : ∀ A, pcAfter A s i = A + 2) (h : (s.storeBytes a bs).2 = none) : Effect i s (s.storeBytes a bs).1
  | storeFault (a : Nat) (bs : List Byte) (r : Raise) (hm : i.mnemonic ∈ [Mnemonic.LD_B, .LD_MEM_VX])
      (h : (s.storeBytes a bs).2 = some r) : Effect i s (faultedBy i r.kind r.addr r.value (s.storeBytes a bs).1)
  | loadFault (a : Nat) (x : Reg) (r : Raise) (hi : i = .ldVxMem x) (h : (s.loadRegs a (regsUpTo x)).2 = some r) :
      Effect i s (faultedBy i r.kind r.addr r.value (s.loadRegs a (regsUpTo x)).1)
  | drawFault (d : Display) (x y : Reg) (n : Nibble) (a : Nat) (hi : i = .drw x y n) (ha : memSize ≤ a) :
      Effect i s (faultedBy i .outOfBounds (some a) none (s.setPix d))
  | stackFault (k : ErrorKind)
      (hm : (i.mnemonic = .CALL ∧ k = .stackOverflow) ∨ (i.mnemonic = .RET ∧ k = .stackUnderflow)) :
      Effect i s (faultedBy i k none none s)
  | operandFault (v : Byte) (hv : 15 < v.toNat) (hm : i.mnemonic ∈ [Mnemonic.SKP, .SKNP, .LD_F]) :
      Effect i s (faultedBy i .operandOutOfRange none (some v) s)

theorem effect_writeV (i : Instr) (s : State) (x : Reg) (b : Byte) (hm : ∀ q, mayWriteV i q = false → q ≠ x)
    (hpc : ∀ A, pcAfter A s i = A + 2) : Effect i s (s.writeV x b) :=
  .regs _ rfl (fun q hq => readV_writeV_other _ (hm q hq)) (fun h => absurd rfl h) hpc

theorem effect_writeBack (i : Instr) (s : State) (x : Reg) (rf : Byte × Bool)
    (hm : ∀ q, mayWriteV i q = false → q ≠ x ∧ q ≠ VF) (h : i.mnemonic ∈ takesDraw)
    (hpc : ∀ A, pcAfter A s i = A + 2) : Effect i s (s.writeBack x rf) :=
  .regs _ (writeBack_cases x rf).1 (fun q hq => (writeBack_cases x rf).2.1 q (hm q hq).1 (hm q hq).2) (fun _ => h) hpc

/-- A checked digit is in range, or the instruction raises OperandOutOfRange. -/
theorem effect_digit {i : Instr} {s : State} {v : Byte} {rest : Fin 16 → Result}
    (hm : i.mnemonic ∈ [Mnemonic.SKP, .SKNP, .LD_F])
    (h : ∀ d, digitOperand v = .ok d → ∃ t, rest d = .next t ∧ Effect i s t) :
    ∃ t, orRaise i s (digitOperand v) rest = .next t ∧ Effect i s t := by
  by_cases hv : v.toNat ≤ 15
  · obtain ⟨t, h1, h2⟩ := h _ (digitOperand_ok hv)
    exact ⟨t, by rw [digitOperand_ok hv]; exact h1, h2⟩
  · have hv := Nat.lt_of_not_le hv
    exact ⟨_, by rw [digitOperand_error hv]; rfl, .operandFault v hv hm⟩

/-- A store of several bytes ends well or raises. -/
theorem effect_store {i : Instr} (s : State) (a : Nat) (bs : List Byte) (hm : i.mnemonic ∈ [Mnemonic.LD_B, .LD_MEM_VX])
    (hpc : ∀ A, pcAfter A s i = A + 2) : ∃ t, finish i (s.storeBytes a bs) = .next t ∧ Effect i s t := by
  cases h : (s.storeBytes a bs).2 with
  | none => exact ⟨_, finish_none _ h, .store a bs hm hpc h⟩
  | some r => exact ⟨_, finish_some _ h, .storeFault a bs r hm h⟩

/-- EVERYTHING AN INSTRUCTION CAN DO: it answers a next state, which is one of the effects. -/
theorem exec_next_effect (i : Instr) (s : State) : ∃ t, exec i s = .next t ∧ Effect i s t := by
  have known : ∀ {t}, exec i s = .next t → Effect i s t → ∃ t, exec i s = .next t ∧ Effect i s t :=
    fun h e => ⟨_, h, e⟩
  cases i with
  | cls d => exact known rfl (.clear d rfl)
  | ret d =>
    by_cases h : s.SP.val = 0
    · refine known ?_ (.stackFault .stackUnderflow (.inr ⟨rfl, rfl⟩))
      simp only [exec, execRet, pop_error h]
      rfl
    · refine known ?_ (.ret d rfl h)
      simp only [exec, execRet, pop_ok h]
      rfl
  | jp nnn =>
    have := nnn.isLt
    have e : (addrOperand nnn).toNat = nnn.toNat := by simp only [addrOperand, BitVec.toNat_setWidth]; omega
    exact known rfl (.jump _ (by simp [Instr.mnemonic]) (by omega) fun _ => e.symm)
  | call nnn =>
    by_cases h : s.SP.val < 16
    · refine known ?_ (.call nnn rfl h)
      simp only [exec, execCall, push_ok _ h]
      rfl
    · refine known ?_ (.stackFault .stackOverflow (.inl ⟨rfl, rfl⟩))
      simp only [exec, execCall, push_error _ h]
      rfl
  | seImm x kk => exact known rfl (.skip (by simp [Instr.mnemonic]) fun _ => rfl)
  | sneImm x kk => exact known rfl (.skip (by simp [Instr.mnemonic]) fun _ => rfl)
  | seReg x y d => exact known rfl (.skip (by simp [Instr.mnemonic]) fun _ => rfl)
  | sneReg x y d => exact known rfl (.skip (by simp [Instr.mnemonic]) fun _ => rfl)
  | ldImm x kk => exact known rfl (effect_writeV _ _ _ _ (by simp [mayWriteV]) fun _ => rfl)
  | addImm x kk => exact known rfl (effect_writeV _ _ _ _ (by simp [mayWriteV]) fun _ => rfl)
  | ldReg x y => exact known rfl (effect_writeV _ _ _ _ (by simp [mayWriteV]) fun _ => rfl)
  | orReg x y => exact known rfl (effect_writeV _ _ _ _ (by simp [mayWriteV]) fun _ => rfl)
  | andReg x y => exact known rfl (effect_writeV _ _ _ _ (by simp [mayWriteV]) fun _ => rfl)
  | xorReg x y => exact known rfl (effect_writeV _ _ _ _ (by simp [mayWriteV]) fun _ => rfl)
  | ldVxDt x => exact known rfl (effect_writeV _ _ _ _ (by simp [mayWriteV]) fun _ => rfl)
  | addReg x y => exact known rfl (effect_writeBack _ _ _ _ (by simp [mayWriteV]) (by simp [Instr.mnemonic]) fun _ => rfl)
  | sub x y => exact known rfl (effect_writeBack _ _ _ _ (by simp [mayWriteV]) (by simp [Instr.mnemonic]) fun _ => rfl)
  | shr x y => exact known rfl (effect_writeBack _ _ _ _ (by simp [mayWriteV]) (by simp [Instr.mnemonic]) fun _ => rfl)
  | subn x y => exact known rfl (effect_writeBack _ _ _ _ (by simp [mayWriteV]) (by simp [Instr.mnemonic]) fun _ => rfl)
  | shl x y => exact known rfl (effect_writeBack _ _ _ _ (by simp [mayWriteV]) (by simp [Instr.mnemonic]) fun _ => rfl)
  | ldI nnn => exact known rfl (.index _ (by simp [Instr.mnemonic]) fun _ => rfl)
  | addI x => exact known rfl (.index _ (by simp [Instr.mnemonic]) fun _ => rfl)
  | jpV0 nnn =>
    have := nnn.isLt
    have := (s.readV 0).isLt
    have e : (addrOperand nnn + s.wideV 0).toNat = nnn.toNat + (s.readV 0).toNat := by
      simp only [addrOperand, State.wideV, BitVec.toNat_add, BitVec.toNat_setWidth]
      omega
    exact known rfl (.jump _ (by simp [Instr.mnemonic]) (by omega) fun _ => e.symm)
  | rnd x kk =>
    exact known rfl (.regs _ rfl (fun q hq => readV_writeV_other _ (by simpa [mayWriteV] using hq))
      (by simp [Instr.mnemonic]) fun _ => rfl)
  | drw x y n =>
    simp only [exec, execDrw]
    cases h : (drawRows s (s.readV x).toNat (s.readV y).toNat n.val 0 (false, s.pix)).2 with
    | none => exact ⟨_, rfl, .draw _ _ x y n rfl⟩
    | some e =>
      obtain ⟨a, ha, rfl⟩ := drawRows_error h
      exact ⟨_, rfl, .drawFault _ x y n a rfl ha⟩
  | skp x =>
    refine effect_digit (by simp [Instr.mnemonic]) fun d h => ⟨_, rfl, ?_⟩
    have := Effect.skip (i := .skp x) (s := s) (by simp [Instr.mnemonic]) fun _ => rfl
    rwa [show skipTaken s (.skp x) = s.pressed d by simp only [skipTaken, keyOperand, h]] at this
  | sknp x =>
    refine effect_digit (by simp [Instr.mnemonic]) fun d h => ⟨_, rfl, ?_⟩
    have := Effect.skip (i := .sknp x) (s := s) (by simp [Instr.mnemonic]) fun _ => rfl
    rwa [show skipTaken s (.sknp x) = !s.pressed d by simp only [skipTaken, keyOperand, h]] at this
  | ldF x => exact effect_digit (by simp [Instr.mnemonic]) fun _ _ => ⟨_, rfl, .index _ (by simp [Instr.mnemonic]) fun _ => rfl⟩
  | ldVxK x => exact known rfl (.wait x rfl)
  | ldDt x => exact known rfl (.delay x rfl)
  | ldSt x => exact known rfl (.sound x rfl)
  | ldB x => exact effect_store s _ _ (by simp [Instr.mnemonic]) fun _ => rfl
  | ldMemVx x => exact effect_store s _ _ (by simp [Instr.mnemonic]) fun _ => rfl
  | ldVxMem x =>
    have hc := loadRegs_cases (regsUpTo x) s (s.effAddr 0)
    simp only [exec, execLdVxMem]
    cases h : (s.loadRegs (s.effAddr 0) (regsUpTo x)).2 with
    | none =>
      refine ⟨_, finish_none _ h, .regs _ ?_ ?_ ?_ fun _ => rfl⟩
      · rw [hc.1]
      · exact fun q hq => hc.2.1 q (by rw [mem_regsUpTo]; simpa [mayWriteV] using hq)
      · rw [hc.1]
        simp
    | some r => exact ⟨_, finish_some _ h, .loadFault _ x r rfl h⟩

theorem exec_effect {i : Instr} {s t : State} (h : exec i s = .next t) : Effect i s t := by
  obtain ⟨u, hu, he⟩ := exec_next_effect i s
  rw [hu] at h
  exact Host.Outcome.next.inj h ▸ he

/-! ### The step -/

/-- Of a word that was fetched, both bytes have an address. -/
theorem fetch_eq_ok {s : State} {w : Word} (h : fetch s = .ok w) :
    s.pc.toNat + 1 < memSize ∧ misaligned s.cfg s.pc.toNat = false ∧
    w = wordOfBytes (s.byteAt s.pc.toNat) (s.byteAt (s.pc.toNat + 1)) := by
  unfold fetch at h
  split at h
  · cases h
  · rename_i hm
    by_cases h1 : s.pc.toNat + 1 < memSize
    · rw [memRead_ok h1, memRead_ok (show s.pc.toNat < memSize by omega)] at h
      exact ⟨h1, Bool.eq_false_iff.2 hm, (Except.ok.inj h).symm⟩
    · rw [memRead_error (Nat.le_of_not_lt h1)] at h
      by_cases h2 : s.pc.toNat < memSize
      · rw [memRead_ok h2] at h
        cases h
      · rw [memRead_error (Nat.le_of_not_lt h2)] at h
        cases h

/-- Why a fetch raises: the alignment, or the first of the two addresses that does not exist. -/
theorem fetch_eq_error {s : State} {r : Raise} (h : fetch s = .error r) :
    (r = bareRaise .misalignedFetch ∧ misaligned s.cfg s.pc.toNat = true) ∨
    (r = outOfBoundsAt (max s.pc.toNat memSize) ∧ misaligned s.cfg s.pc.toNat = false ∧ memSize ≤ s.pc.toNat + 1) := by
  unfold fetch at h
  split at h
  · cases h
    exact .inl ⟨rfl, by assumption⟩
  · rename_i hm
    have hm := Bool.eq_false_iff.2 hm
    by_cases h1 : s.pc.toNat + 1 < memSize
    · rw [memRead_ok h1, memRead_ok (show s.pc.toNat < memSize by omega)] at h
      cases h
    · have h1 := Nat.le_of_not_lt h1
      rw [memRead_error h1] at h
      by_cases h2 : s.pc.toNat < memSize
      · rw [memRead_ok h2] at h
        cases h
        exact .inr ⟨by rw [show max s.pc.toNat memSize = s.pc.toNat + 1 by omega], hm, h1⟩
      · rw [memRead_error (Nat.le_of_not_lt h2)] at h
        cases h
        exact .inr ⟨by rw [show max s.pc.toNat memSize = s.pc.toNat by omega], hm, h1⟩

/-- EVERYTHING A STEP CAN DO. -/
theorem step_cases {s t : State} (h : step s = .next t) :
    (∃ x prev, s.run = .awaitingKey x prev ∧ t = pollKey x prev (s.setLoadPhase .started)) ∨
    (s.run = .running ∧ ∃ r, fetch s = .error r ∧ t = fetchFault r (s.setLoadPhase .started)) ∨
    (s.run = .running ∧ ∃ w, fetch s = .ok w ∧
      ((∃ e, decode s.cfg.decodeDontCare w = .error e ∧
          t = unknownOpcode s.pc w (advance (s.setLoadPhase .started))) ∨
        ∃ i, decode s.cfg.decodeDontCare w = .ok i ∧ Effect i (advance (s.setLoadPhase .started)) t)) := by
  unfold step at h
  cases hr : s.run with
  | running =>
    rw [hr] at h
    simp only [stepRunning] at h
    rw [show fetch (s.setLoadPhase .started) = fetch s from rfl] at h
    cases hf : fetch s with
    | error r =>
      rw [hf] at h
      exact .inr (.inl ⟨rfl, r, rfl, (Host.Outcome.next.inj h).symm⟩)
    | ok w =>
      rw [hf] at h
      simp only [dispatchWord] at h
      rw [show (advance (s.setLoadPhase .started)).cfg = s.cfg from rfl] at h
      refine .inr (.inr ⟨rfl, w, rfl, ?_⟩)
      cases hd : decode s.cfg.decodeDontCare w with
      | error e =>
        rw [hd] at h
        exact .inl ⟨e, rfl, (Host.Outcome.next.inj h).symm⟩
      | ok i =>
        rw [hd] at h
        exact .inr ⟨i, rfl, exec_effect h⟩
  | awaitingKey x prev =>
    rw [hr] at h
    exact .inl ⟨x, prev, rfl, (Host.Outcome.next.inj h).symm⟩
  | faulted rec =>
    rw [hr] at h
    cases h

/-- All that a poll can do: it writes V[x] at most, it may take a free value, and it leaves a core that is not Faulted. -/
theorem pollKey_cases (x : Reg) (prev : Keys) (s : State) :
    pollKey x prev s = { s with
      V := (pollKey x prev s).V, run := (pollKey x prev s).run, draws := (pollKey x prev s).draws } ∧
    (∀ q, q ≠ x → (pollKey x prev s).readV q = s.readV q) ∧ ∀ rec, (pollKey x prev s).run ≠ .faulted rec := by
  unfold pollKey
  split
  · exact ⟨rfl, fun _ _ => rfl, by simp⟩
  · split
    · exact ⟨rfl, fun q hq => readV_writeV_other _ hq, by simp⟩
    · exact ⟨rfl, fun q hq => readV_writeV_other _ hq, by simp⟩

/-- The keys that a poll finds are the fresh ones. -/
theorem mem_freshKeys (now prev : Keys) (k : Fin 16) : k ∈ freshKeys now prev ↔ Fresh now prev k := by
  have : ∀ k : Fin 16, k ∈ ([0, 1, 2, 3, 4, 5, 6, 7, 8, 9, 10, 11, 12, 13, 14, 15] : List (Fin 16)) := by decide
  simp [freshKeys, Fresh, this k]

/-- The fresh keys are listed in rising order. -/
theorem freshKeys_rising (now prev : Keys) : (freshKeys now prev).Pairwise (· < ·) :=
  List.Pairwise.filter _ (by decide)

end Sys2Proof.Machine
end

