-- ==== Sys2Proof/Laws/Display.lean ====
section
/-! SUPPORT. Drawing in closed form (44_display.md R173): which pixels a row and a sprite flip, when they collide, and
where a sprite that runs past the end of memory stops. -/

namespace Sys2Proof.Machine

/-- `f` reads the display `d` with the pixels in `S` flipped, and `hit` says whether one of them was lit. -/
def Flipped (S : Fin 64 → Fin 32 → Prop) (acc out : Bool × Display) : Prop :=
  (∀ X Y, (S X Y → pixelAt out.2 X Y = !pixelAt acc.2 X Y) ∧ (¬ S X Y → pixelAt out.2 X Y = pixelAt acc.2 X Y)) ∧
  (out.1 = true ↔ acc.1 = true ∨ ∃ X Y, S X Y ∧ pixelAt acc.2 X Y = true)

theorem Flipped.none {S : Fin 64 → Fin 32 → Prop} (acc : Bool × Display) (h : ∀ X Y, ¬ S X Y) : Flipped S acc acc :=
  ⟨fun X Y => ⟨fun hS => absurd hS (h X Y), fun _ => rfl⟩, by simp [h]⟩

/-- Flips of disjoint sets of pixels, one after the other, flip both. -/
theorem Flipped.trans {S T U : Fin 64 → Fin 32 → Prop} {a b c : Bool × Display} (h : Flipped S a b)
    (h' : Flipped T b c) (disjoint : ∀ X Y, S X Y → ¬ T X Y) (hU : ∀ X Y, U X Y ↔ S X Y ∨ T X Y) : Flipped U a c := by
  refine ⟨fun X Y => ⟨fun hXY => ?_, fun hXY => ?_⟩, ?_⟩
  · rcases (hU X Y).1 hXY with hS | hT
    · rw [(h'.1 X Y).2 (disjoint X Y hS), (h.1 X Y).1 hS]
    · rw [(h'.1 X Y).1 hT, (h.1 X Y).2 fun hS => disjoint X Y hS hT]
  · have := not_or.1 fun h => hXY ((hU X Y).2 h)
    rw [(h'.1 X Y).2 this.2, (h.1 X Y).2 this.1]
  · rw [h'.2, h.2, or_assoc]
    refine or_congr_right ⟨?_, ?_⟩
    · rintro (⟨X, Y, hS, hp⟩ | ⟨X, Y, hT, hp⟩)
      · exact ⟨X, Y, (hU X Y).2 (.inl hS), hp⟩
      · exact ⟨X, Y, (hU X Y).2 (.inr hT), (h.1 X Y).2 (fun hS => disjoint X Y hS hT) ▸ hp⟩
    · rintro ⟨X, Y, hXY, hp⟩
      rcases (hU X Y).1 hXY with hS | hT
      · exact .inl ⟨X, Y, hS, hp⟩
      · exact .inr ⟨X, Y, hT, ((h.1 X Y).2 fun hS => disjoint X Y hS hT).trans hp⟩

/-- Bit 7 - c of the byte covers pixel (X, Y), for a column c of the list. -/
def RowCovers (cs : List Nat) (b : Byte) (px0 py : Nat) (X : Fin 64) (Y : Fin 32) : Prop :=
  ∃ c ∈ cs, X.val = (px0 + c) % 64 ∧ Y.val = py % 32 ∧ b.getLsbD (7 - c) = true

theorem drawColumn_flipped (b : Byte) (px0 py c : Nat) (acc : Bool × Display) :
    Flipped (RowCovers [c] b px0 py) acc (drawColumn b px0 py acc c) := by
  unfold drawColumn
  cases hb : b.getLsbD (7 - c) with
  | false => exact Flipped.none acc fun X Y => by simp [RowCovers, hb]
  | true =>
    simp only [if_true]
    have hS : ∀ X Y, RowCovers [c] b px0 py X Y ↔
        X = ⟨(px0 + c) % 64, Nat.mod_lt _ (by decide)⟩ ∧ Y = ⟨py % 32, Nat.mod_lt _ (by decide)⟩ := by
      simp [RowCovers, hb, Fin.ext_iff]
    refine ⟨fun X Y => ?_, ?_⟩
    · rw [hS, pixelAt_togglePixel]
      refine ⟨fun h => ?_, fun h => if_neg h⟩
      rw [if_pos h, h.1, h.2]
    · simp only [hS, Bool.or_eq_true]
      refine or_congr_right ⟨fun h => ⟨_, _, ⟨rfl, rfl⟩, h⟩, ?_⟩
      rintro ⟨X, Y, ⟨rfl, rfl⟩, h⟩
      exact h

theorem drawColumns_flipped {cs : List Nat} (hc : cs.Nodup) (h8 : ∀ c ∈ cs, c < 8) (b : Byte) (px0 py : Nat)
    (acc : Bool × Display) : Flipped (RowCovers cs b px0 py) acc (cs.foldl (drawColumn b px0 py) acc) := by
  induction cs generalizing acc with
  | nil => exact Flipped.none acc (by simp [RowCovers])
  | cons c cs ih =>
    obtain ⟨hn, hc⟩ := List.nodup_cons.1 hc
    refine (drawColumn_flipped b px0 py c acc).trans (ih hc (fun d hd => h8 d (by simp [hd])) _) ?_ ?_
    · rintro X Y ⟨c', hc', hX, -⟩ ⟨d, hd, hX', -⟩
      obtain rfl := List.mem_singleton.1 hc'
      have := h8 c' (by simp)
      have := h8 d (by simp [hd])
      exact hn ((show c' = d by omega) ▸ hd)
    · simp [RowCovers]

/-- A sprite row flips the pixels that its set bits cover. -/
theorem drawRow_flipped (b : Byte) (px0 py : Nat) (acc : Bool × Display) :
    Flipped (RowCovers [0, 1, 2, 3, 4, 5, 6, 7] b px0 py) acc (drawRow b px0 py acc) :=
  drawColumns_flipped (by decide) (by decide) b px0 py acc

/-- The rows from `r` on, `k` of them, cover pixel (X, Y). -/
def RowsCover (s : State) (px0 py0 k r : Nat) (X : Fin 64) (Y : Fin 32) : Prop :=
  ∃ j, j < k ∧ RowCovers [0, 1, 2, 3, 4, 5, 6, 7] (s.byteAt (s.I.toNat + (r + j))) px0 (py0 + (r + j)) X Y

/-- A sprite that can be read, of at most 32 rows, flips the pixels that it covers. -/
theorem drawRows_flipped {s : State} {px0 py0 k r : Nat} (hk : k ≤ 32) (hm : k = 0 ∨ s.I.toNat + (r + k) ≤ memSize)
    (acc : Bool × Display) : Flipped (RowsCover s px0 py0 k r) acc (drawRows s px0 py0 k r acc).1 := by
  induction k generalizing r acc with
  | zero => exact Flipped.none acc (by simp [RowsCover])
  | succ k ih =>
    simp only [drawRows, memRead_ok (show s.I.toNat + r < memSize by omega)]
    refine (drawRow_flipped _ px0 (py0 + r) acc).trans (ih (r := r + 1) (by omega) (by omega) _) ?_ ?_
    · rintro X Y ⟨c, -, -, hY, -⟩ ⟨j, hj, d, -, -, hY', -⟩
      omega
    · intro X Y
      constructor
      · rintro ⟨j, hj, h⟩
        cases j with
        | zero => exact .inl h
        | succ j => exact .inr ⟨j, by omega, by rwa [show r + 1 + j = r + (j + 1) by omega]⟩
      · rintro (h | ⟨j, hj, h⟩)
        · exact ⟨0, by omega, h⟩
        · exact ⟨j + 1, by omega, by rwa [show r + (j + 1) = r + 1 + j by omega]⟩

/-- The rows from the first on are those of the statement's `Covers`. -/
theorem rowsCover_iff (s : State) (px0 py0 n : Nat) (X : Fin 64) (Y : Fin 32) :
    RowsCover s px0 py0 n 0 X Y ↔ Covers s px0 py0 n X Y := by
  have h8 : ∀ c : Nat, c ∈ [0, 1, 2, 3, 4, 5, 6, 7] ↔ c < 8 := by
    intro c
    simp only [List.mem_cons, List.not_mem_nil, or_false]
    omega
  simp only [RowsCover, RowCovers, Covers, h8, Nat.zero_add]
  exact ⟨fun ⟨j, hj, c, h⟩ => ⟨j, c, hj, h⟩, fun ⟨j, c, hj, h⟩ => ⟨j, hj, c, h⟩⟩

/-- A sprite that runs past the end of memory draws the rows that can be read, and raises at the first that cannot. -/
theorem drawRows_past_end {s : State} {px0 py0 k r : Nat} (h0 : k ≠ 0) (h : memSize < s.I.toNat + (r + k))
    (acc : Bool × Display) :
    drawRows s px0 py0 k r acc = ((drawRows s px0 py0 (memSize - (s.I.toNat + r)) r acc).1,
      some (outOfBoundsAt (max (s.I.toNat + r) memSize))) := by
  induction k generalizing r acc with
  | zero => exact absurd rfl h0
  | succ k ih =>
    by_cases hr : memSize ≤ s.I.toNat + r
    · simp only [drawRows, memRead_error hr]
      rw [Nat.sub_eq_zero_of_le hr, Nat.max_eq_left hr]
      rfl
    · have hr := Nat.lt_of_not_le hr
      obtain ⟨m, hm⟩ : ∃ m, memSize - (s.I.toNat + r) = m + 1 := ⟨memSize - (s.I.toNat + r) - 1, by omega⟩
      simp only [hm, drawRows, memRead_ok hr]
      rw [ih (by omega) (by omega), show memSize - (s.I.toNat + (r + 1)) = m by omega,
        show max (s.I.toNat + (r + 1)) memSize = max (s.I.toNat + r) memSize by omega]

/-- Every pixel of a blank display is off. -/
@[simp] theorem pixelAt_blankDisplay (X : Fin 64) (Y : Fin 32) : pixelAt blankDisplay X Y = false := by
  simp [pixelAt, blankDisplay]

end Sys2Proof.Machine
end

