-- ==== Sys2Proof/Laws/HostInterface.lean ====
section
/-! SUPPORT. What the operations of the host can do: the copying of a ROM image (20_memory.md R55) and load_rom. -/

namespace Sys2Proof.Machine

/-- All that copying an image into writable memory does. -/
theorem putBytes_spec (bs : List Byte) (a : Nat) (s : State) (hlo : protectedLimit ≤ a)
    (hhi : a + bs.length ≤ memSize) :
    putBytes a bs s = { s with mem := (putBytes a bs s).mem } ∧
    (Memory.wf s.cfg s.mem → Memory.wf s.cfg (putBytes a bs s).mem) ∧
    (∀ p ∈ (putBytes a bs s).mem, p ∈ s.mem ∨ protectedLimit ≤ p.1) ∧
    (∀ x, (x < a ∨ a + bs.length ≤ x) → (putBytes a bs s).byteAt x = s.byteAt x) ∧
    (Memory.wf s.cfg s.mem → ∀ j (h : j < bs.length), (putBytes a bs s).byteAt (a + j) = bs[j]) := by
  induction bs generalizing a s with
  | nil => exact ⟨rfl, id, fun _ hp => .inl hp, fun _ _ => rfl, fun _ j h => nomatch h⟩
  | cons b bs ih =>
    rw [List.length_cons] at hhi
    obtain ⟨i1, i2, i3, i4, i5⟩ := ih (a + 1) (s.putByte a b) (by omega) (by omega)
    simp only [putBytes]
    refine ⟨i1, fun h => i2 (putByte_wf h (by omega) b), fun p hp => ?_, fun x hx => ?_, fun h j hj => ?_⟩
    · rcases i3 p hp with hp | hp
      · rcases Memory.mem_write s.cfg hp with hp | ⟨rfl, -⟩
        · exact .inl hp
        · exact .inr hlo
      · exact .inr hp
    · rw [List.length_cons] at hx
      rw [i4 x (by omega), byteAt_putByte_other b (by omega)]
    · cases j with
      | zero =>
        exact (i4 a (by omega)).trans (byteAt_putByte_same h a b)
      | succ j =>
        rw [show a + (j + 1) = a + 1 + j by omega]
        exact i5 (putByte_wf h (by omega) b) j (by simpa using hj)

/-- A load that answers a next state was admitted, and copied the image. -/
theorem loadRom_next {bytes : List Byte} {s t : State} (h : loadRom bytes s = .next t) :
    bytes.length ≤ romMax ∧ s.loadPhase = .awaitingRom ∧
    t = (putBytes romBase bytes s).setLoadPhase .romLoaded := by
  unfold loadRom at h
  cases hl : s.loadPhase with
  | awaitingRom =>
    rw [hl] at h
    simp only at h
    split at h
    · cases h
    · exact ⟨by omega, rfl, (Host.Outcome.next.inj h).symm⟩
  | romLoaded =>
    rw [hl] at h
    cases h
  | started =>
    rw [hl] at h
    cases h

end Sys2Proof.Machine
end

