-- ==== Sys2Proof/Laws/PerInstr.lean ====
section
/-! SUPPORT. Statements made per instruction: the first level of the dispatch (30_encoding.md R74). -/

namespace Sys2Proof.Laws.TopDigit

/-- The top nibble of an instruction's word is that of its row's match, so the first level of the dispatch finds its
group (30_encoding.md R74). -/
def Statement (i : Instr) : Prop := (opField (encode i)).val = i.mnemonic.matchAndMask.1.toNat / 0x1000

theorem cls (d : Nibble) : Statement (.cls d) := (fields_digitRegByte (op := 0) (by decide) d _).1.trans (by simp [Instr.mnemonic, Mnemonic.matchAndMask])
theorem ret (d : Nibble) : Statement (.ret d) := (fields_digitRegByte (op := 0) (by decide) d _).1.trans (by simp [Instr.mnemonic, Mnemonic.matchAndMask])
theorem jp (nnn : Addr12) : Statement (.jp nnn) := (fields_digitAddr (op := 1) (by decide) nnn).1.trans (by simp [Instr.mnemonic, Mnemonic.matchAndMask])
theorem call (nnn : Addr12) : Statement (.call nnn) := (fields_digitAddr (op := 2) (by decide) nnn).1.trans (by simp [Instr.mnemonic, Mnemonic.matchAndMask])
theorem seImm (x : Reg) (kk : Byte) : Statement (.seImm x kk) := (fields_digitRegByte (op := 3) (by decide) x kk).1.trans (by simp [Instr.mnemonic, Mnemonic.matchAndMask])
theorem sneImm (x : Reg) (kk : Byte) : Statement (.sneImm x kk) := (fields_digitRegByte (op := 4) (by decide) x kk).1.trans (by simp [Instr.mnemonic, Mnemonic.matchAndMask])
theorem seReg (x : Reg) (y : Reg) (d : Nibble) : Statement (.seReg x y d) := (fields_digits (op := 5) (by decide) x y d).1.trans (by simp [Instr.mnemonic, Mnemonic.matchAndMask])
theorem ldImm (x : Reg) (kk : Byte) : Statement (.ldImm x kk) := (fields_digitRegByte (op := 6) (by decide) x kk).1.trans (by simp [Instr.mnemonic, Mnemonic.matchAndMask])
theorem addImm (x : Reg) (kk : Byte) : Statement (.addImm x kk) := (fields_digitRegByte (op := 7) (by decide) x kk).1.trans (by simp [Instr.mnemonic, Mnemonic.matchAndMask])
theorem ldReg (x : Reg) (y : Reg) : Statement (.ldReg x y) := (fields_digits (op := 8) (by decide) x y _).1.trans (by simp [Instr.mnemonic, Mnemonic.matchAndMask])
theorem orReg (x : Reg) (y : Reg) : Statement (.orReg x y) := (fields_digits (op := 8) (by decide) x y _).1.trans (by simp [Instr.mnemonic, Mnemonic.matchAndMask])
theorem andReg (x : Reg) (y : Reg) : Statement (.andReg x y) := (fields_digits (op := 8) (by decide) x y _).1.trans (by simp [Instr.mnemonic, Mnemonic.matchAndMask])
theorem xorReg (x : Reg) (y : Reg) : Statement (.xorReg x y) := (fields_digits (op := 8) (by decide) x y _).1.trans (by simp [Instr.mnemonic, Mnemonic.matchAndMask])
theorem addReg (x : Reg) (y : Reg) : Statement (.addReg x y) := (fields_digits (op := 8) (by decide) x y _).1.trans (by simp [Instr.mnemonic, Mnemonic.matchAndMask])
theorem sub (x : Reg) (y : Reg) : Statement (.sub x y) := (fields_digits (op := 8) (by decide) x y _).1.trans (by simp [Instr.mnemonic, Mnemonic.matchAndMask])
theorem shr (x : Reg) (y : Reg) : Statement (.shr x y) := (fields_digits (op := 8) (by decide) x y _).1.trans (by simp [Instr.mnemonic, Mnemonic.matchAndMask])
theorem subn (x : Reg) (y : Reg) : Statement (.subn x y) := (fields_digits (op := 8) (by decide) x y _).1.trans (by simp [Instr.mnemonic, Mnemonic.matchAndMask])
theorem shl (x : Reg) (y : Reg) : Statement (.shl x y) := (fields_digits (op := 8) (by decide) x y _).1.trans (by simp [Instr.mnemonic, Mnemonic.matchAndMask])
theorem sneReg (x : Reg) (y : Reg) (d : Nibble) : Statement (.sneReg x y d) := (fields_digits (op := 9) (by decide) x y d).1.trans (by simp [Instr.mnemonic, Mnemonic.matchAndMask])
theorem ldI (nnn : Addr12) : Statement (.ldI nnn) := (fields_digitAddr (op := 10) (by decide) nnn).1.trans (by simp [Instr.mnemonic, Mnemonic.matchAndMask])
theorem jpV0 (nnn : Addr12) : Statement (.jpV0 nnn) := (fields_digitAddr (op := 11) (by decide) nnn).1.trans (by simp [Instr.mnemonic, Mnemonic.matchAndMask])
theorem rnd (x : Reg) (kk : Byte) : Statement (.rnd x kk) := (fields_digitRegByte (op := 12) (by decide) x kk).1.trans (by simp [Instr.mnemonic, Mnemonic.matchAndMask])
theorem drw (x : Reg) (y : Reg) (n : Nibble) : Statement (.drw x y n) := (fields_digits (op := 13) (by decide) x y n).1.trans (by simp [Instr.mnemonic, Mnemonic.matchAndMask])
theorem skp (x : Reg) : Statement (.skp x) := (fields_digitRegByte (op := 14) (by decide) x _).1.trans (by simp [Instr.mnemonic, Mnemonic.matchAndMask])
theorem sknp (x : Reg) : Statement (.sknp x) := (fields_digitRegByte (op := 14) (by decide) x _).1.trans (by simp [Instr.mnemonic, Mnemonic.matchAndMask])
theorem ldVxDt (x : Reg) : Statement (.ldVxDt x) := (fields_digitRegByte (op := 15) (by decide) x _).1.trans (by simp [Instr.mnemonic, Mnemonic.matchAndMask])
theorem ldVxK (x : Reg) : Statement (.ldVxK x) := (fields_digitRegByte (op := 15) (by decide) x _).1.trans (by simp [Instr.mnemonic, Mnemonic.matchAndMask])
theorem ldDt (x : Reg) : Statement (.ldDt x) := (fields_digitRegByte (op := 15) (by decide) x _).1.trans (by simp [Instr.mnemonic, Mnemonic.matchAndMask])
theorem ldSt (x : Reg) : Statement (.ldSt x) := (fields_digitRegByte (op := 15) (by decide) x _).1.trans (by simp [Instr.mnemonic, Mnemonic.matchAndMask])
theorem addI (x : Reg) : Statement (.addI x) := (fields_digitRegByte (op := 15) (by decide) x _).1.trans (by simp [Instr.mnemonic, Mnemonic.matchAndMask])
theorem ldF (x : Reg) : Statement (.ldF x) := (fields_digitRegByte (op := 15) (by decide) x _).1.trans (by simp [Instr.mnemonic, Mnemonic.matchAndMask])
theorem ldB (x : Reg) : Statement (.ldB x) := (fields_digitRegByte (op := 15) (by decide) x _).1.trans (by simp [Instr.mnemonic, Mnemonic.matchAndMask])
theorem ldMemVx (x : Reg) : Statement (.ldMemVx x) := (fields_digitRegByte (op := 15) (by decide) x _).1.trans (by simp [Instr.mnemonic, Mnemonic.matchAndMask])
theorem ldVxMem (x : Reg) : Statement (.ldVxMem x) := (fields_digitRegByte (op := 15) (by decide) x _).1.trans (by simp [Instr.mnemonic, Mnemonic.matchAndMask])

end Sys2Proof.Laws.TopDigit
end

