-- ==== Sys2Proof/Tests/Slice0.lean ====
section
/-! SUPPORT. The model's own tests: ill-formed terms that are refused, a word of every instruction written out from the
opcode map, one-step vectors of 95_test_vectors.md (the vector's number stands beside each), and for every statement
with hypotheses a concrete state and operands that meet them. -/

namespace Sys2Proof.Tests

open Sys2Proof Sys2Proof.Machine

/-! ### Helpers -/

/-- What `f` sees of a next state. -/
def seen {α : Type} (f : State → α) (r : Result) : Option α :=
  match r with
  | .next t => some (f t)
  | .fault _ => none
  | .refused _ => none

/-- What `f` sees after the word `w`, placed at pc, has run for one step. -/
def after {α : Type} (w : Nat) (s : State) (f : State → α) : Option α := seen f (step (s.withFetchWord 16 w))

/-- The reset state with these registers written, in order. -/
def regs (l : List (Reg × Byte)) (s : State := State.reset) : State := l.foldl (fun s p => s.writeV p.1 p.2) s

/-- The state with these bytes from an address on. -/
def bytes (a : Nat) (l : List Byte) (s : State) : State := putBytes a l s

/-- The registers of a list, read. -/
def reads (l : List Reg) (s : State) : List Byte := l.map s.readV

/-- The lit pixels among these (column, row) pairs. -/
def lit (l : List (Fin 64 × Fin 32)) (s : State) : List Bool := l.map fun p => pixelAt s.pix p.1 p.2

/-- The fault record. -/
def record (s : State) : Option FaultRecord :=
  match s.run with
  | .faulted r => some r
  | .running => none
  | .awaitingKey _ _ => none

/-- The parameters with some of them changed. -/
def withCfg (f : Config → Config) (s : State) : State := { s with cfg := f s.cfg }

/-! ### Ill-formed terms are refused (30_encoding.md R75) -/

theorem test_illFormed_cls : Instr.wellFormed .strict (.cls 1) = false := by decide
theorem test_illFormed_ret : Instr.wellFormed .strict (.ret 3) = false := by decide
theorem test_illFormed_seReg : Instr.wellFormed .strict (.seReg 1 2 5) = false := by decide
theorem test_illFormed_sneReg : Instr.wellFormed .strict (.sneReg 1 2 15) = false := by decide

/-! ### A word of every constructor, from the patterns of 30_encoding.md R74 -/

theorem test_decode_cls : decodeTableWord 16 0x00E0 = some (.cls 0) := by decide
theorem test_decode_ret : decodeTableWord 16 0x00EE = some (.ret 0) := by decide
theorem test_decode_jp : decodeTableWord 16 0x1234 = some (.jp 0x234) := by decide
theorem test_decode_call : decodeTableWord 16 0x2210 = some (.call 0x210) := by decide
theorem test_decode_seImm : decodeTableWord 16 0x3A5C = some (.seImm 10 0x5C) := by decide
theorem test_decode_sneImm : decodeTableWord 16 0x4A5C = some (.sneImm 10 0x5C) := by decide
theorem test_decode_seReg : decodeTableWord 16 0x5A30 = some (.seReg 10 3 0) := by decide
theorem test_decode_ldImm : decodeTableWord 16 0x6A42 = some (.ldImm 10 0x42) := by decide
theorem test_decode_addImm : decodeTableWord 16 0x7A42 = some (.addImm 10 0x42) := by decide
theorem test_decode_ldReg : decodeTableWord 16 0x8A30 = some (.ldReg 10 3) := by decide
theorem test_decode_orReg : decodeTableWord 16 0x8A31 = some (.orReg 10 3) := by decide
theorem test_decode_andReg : decodeTableWord 16 0x8A32 = some (.andReg 10 3) := by decide
theorem test_decode_xorReg : decodeTableWord 16 0x8A33 = some (.xorReg 10 3) := by decide
theorem test_decode_addReg : decodeTableWord 16 0x8A34 = some (.addReg 10 3) := by decide
theorem test_decode_sub : decodeTableWord 16 0x8A35 = some (.sub 10 3) := by decide
theorem test_decode_shr : decodeTableWord 16 0x8A36 = some (.shr 10 3) := by decide
theorem test_decode_subn : decodeTableWord 16 0x8A37 = some (.subn 10 3) := by decide
theorem test_decode_shl : decodeTableWord 16 0x8A3E = some (.shl 10 3) := by decide
theorem test_decode_sneReg : decodeTableWord 16 0x9A30 = some (.sneReg 10 3 0) := by decide
theorem test_decode_ldI : decodeTableWord 16 0xA2F0 = some (.ldI 0x2F0) := by decide
theorem test_decode_jpV0 : decodeTableWord 16 0xBFFF = some (.jpV0 0xFFF) := by decide
theorem test_decode_rnd : decodeTableWord 16 0xC30F = some (.rnd 3 0x0F) := by decide
theorem test_decode_drw : decodeTableWord 16 0xD12F = some (.drw 1 2 15) := by decide
theorem test_decode_skp : decodeTableWord 16 0xE49E = some (.skp 4) := by decide
theorem test_decode_sknp : decodeTableWord 16 0xE4A1 = some (.sknp 4) := by decide
theorem test_decode_ldVxDt : decodeTableWord 16 0xF307 = some (.ldVxDt 3) := by decide
theorem test_decode_ldVxK : decodeTableWord 16 0xF50A = some (.ldVxK 5) := by decide
theorem test_decode_ldDt : decodeTableWord 16 0xF115 = some (.ldDt 1) := by decide
theorem test_decode_ldSt : decodeTableWord 16 0xF218 = some (.ldSt 2) := by decide
theorem test_decode_addI : decodeTableWord 16 0xF51E = some (.addI 5) := by decide
theorem test_decode_ldF : decodeTableWord 16 0xF229 = some (.ldF 2) := by decide
theorem test_decode_ldB : decodeTableWord 16 0xF333 = some (.ldB 3) := by decide
theorem test_decode_ldMemVx : decodeTableWord 16 0xFF55 = some (.ldMemVx 15) := by decide
theorem test_decode_ldVxMem : decodeTableWord 16 0xF065 = some (.ldVxMem 0) := by decide

/-- FD5: words that no row selects, under strict and under lax. -/
theorem test_decode_unknown (m : DecodeDontCare) :
    decode m 0x800F = .error (.unknownOpcode 0x800F) ∧ decode m 0xE09F = .error (.unknownOpcode 0xE09F) ∧
    decode m 0xF000 = .error (.unknownOpcode 0xF000) ∧ decode m 0x0123 = .error (.unknownOpcode 0x0123) :=
  ⟨rfl, rfl, rfl, rfl⟩

/-- FD3, FD4: the ignored digits, under strict and under lax. -/
theorem test_decode_dontCare :
    decode .strict 0x5121 = .error (.unknownOpcode 0x5121) ∧ decode .lax 0x5121 = .ok (.seReg 1 2 1) ∧
    decode .strict 0x01E0 = .error (.unknownOpcode 0x01E0) ∧ decode .lax 0x01E0 = .ok (.cls 1) := by decide

/-- Fewer than two bytes are no word (30_encoding.md R70). -/
theorem test_decode_truncated : decodeBytes .lax [0x12] = .error .truncated := by decide

/-! ### Fetch (95_test_vectors.md section 2.1) -/

/-- FD2 -/
theorem test_step_emptyMemory :
    seen (fun t => (record t, t.pc)) (step State.reset) =
      some (some ⟨.unknownOpcode, 0x200, some 0x0000, none, none⟩, 0x202) := by decide

/-- FD7 -/
theorem test_fetch_lastWord : after 0x1200 { State.reset with pc := 0xFFE } State.pc = some 0x200 := by decide

/-- FD8 -/
theorem test_fetch_secondByte :
    seen (fun t => (record t, t.pc)) (step { State.reset with pc := 0xFFF }) =
      some (some ⟨.outOfBounds, 0xFFF, none, some 0x1000, none⟩, 0xFFF) := by decide

/-- FD9 -/
theorem test_fetch_firstByte :
    seen (fun t => (record t, t.pc)) (step { State.reset with pc := 0x1000 }) =
      some (some ⟨.outOfBounds, 0x1000, none, some 0x1000, none⟩, 0x1000) := by decide

/-- FD10, step 2 under `fault` -/
theorem test_fetch_misaligned :
    seen (fun t => (record t, t.pc))
        (step (withCfg (fun c => { c with misalignedFetch := .fault }) { State.reset with pc := 0x201 })) =
      some (some ⟨.misalignedFetch, 0x201, none, none, none⟩, 0x201) := by decide

/-! ### Control flow (section 2.2) -/

/-- CF6 -/
theorem test_ret :
    after 0x00EE { State.reset with pc := 0x210, SP := 2, stack := (State.reset.stack.set 0 0x206).set 1 0x31A }
      (fun t => (t.SP, t.pc, t.stack[1])) = some (1, 0x31A, 0x31A) := by decide

/-- CF5 -/
theorem test_ret_underflow :
    after 0x00EE { State.reset with pc := 0x210 } (fun t => (record t, t.SP, t.pc)) =
      some (some ⟨.stackUnderflow, 0x210, some 0x00EE, none, none⟩, 0, 0x212) := by decide

/-- CF2 -/
theorem test_jp : after 0x1FFF State.reset State.pc = some 0xFFF := by decide

/-- CF3 -/
theorem test_call :
    after 0x2300 { State.reset with pc := 0x204, SP := 15 } (fun t => (t.stack[15], t.SP, t.pc)) =
      some (0x206, 16, 0x300) := by decide

/-- CF4 -/
theorem test_call_overflow :
    after 0x2300 { State.reset with pc := 0x204, SP := 16 } (fun t => (record t, t.SP, t.pc)) =
      some (some ⟨.stackOverflow, 0x204, some 0x2300, none, none⟩, 16, 0x206) := by decide

/-- CF7 -/
theorem test_seImm :
    after 0x3305 { regs [(3, 0x05)] with pc := 0x208 } State.pc = some 0x20C ∧
    after 0x3306 { regs [(3, 0x05)] with pc := 0x208 } State.pc = some 0x20A := by decide

/-- CF9 -/
theorem test_sneImm :
    after 0x4305 { regs [(3, 0x05)] with pc := 0x208 } State.pc = some 0x20A ∧
    after 0x4306 { regs [(3, 0x05)] with pc := 0x208 } State.pc = some 0x20C := by decide

/-- CF10, CF12 -/
theorem test_seReg :
    after 0x5440 { regs [(4, 0x7F)] with pc := 0x300 } State.pc = some 0x304 ∧
    after 0x5120 { regs [(1, 0x01), (2, 0x02)] with pc := 0x300 } State.pc = some 0x302 := by decide

/-- CF11, CF12 -/
theorem test_sneReg :
    after 0x9440 { regs [(4, 0x7F)] with pc := 0x300 } State.pc = some 0x302 ∧
    after 0x9120 { regs [(1, 0x01), (2, 0x02)] with pc := 0x300 } State.pc = some 0x304 := by decide

/-- CF14, CF15 -/
theorem test_jpV0 :
    after 0xBFFF (regs [(0, 0xFF)]) State.pc = some 0x10FE ∧
    after 0xB300 (regs [(0, 0x04), (1, 0xFF)]) State.pc = some 0x304 := by decide

/-! ### ALU and registers (section 2.3) -/

/-- AL32 -/
theorem test_ldImm : after 0x6A42 State.reset (reads [10]) = some [0x42] := by decide

/-- AL24, AL25 -/
theorem test_addImm :
    after 0x7002 (regs [(0, 0xFF), (15, 0x07)]) (reads [0, 15]) = some [0x01, 0x07] ∧
    after 0x7F03 (regs [(15, 0xFE)]) (reads [15]) = some [0x01] := by decide

/-- AL28 -/
theorem test_ldReg : after 0x8F20 (regs [(2, 0x99)]) (reads [15]) = some [0x99] := by decide

/-- AL26 -/
theorem test_logicals :
    after 0x8121 (regs [(1, 0xF0), (2, 0x0F), (15, 0x55)]) (reads [1, 15]) = some [0xFF, 0x55] ∧
    after 0x8122 (regs [(1, 0xF0), (2, 0x0F), (15, 0x55)]) (reads [1, 15]) = some [0x00, 0x55] ∧
    after 0x8123 (regs [(1, 0xF0), (2, 0x0F), (15, 0x55)]) (reads [1, 15]) = some [0xFF, 0x55] := by decide

/-- AL2, AL5 -/
theorem test_addReg :
    after 0x8124 (regs [(1, 0x80), (2, 0x7F)]) (reads [1, 15]) = some [0xFF, 0] ∧
    after 0x81F4 (regs [(15, 0x01), (1, 0xFF)]) (reads [1, 15]) = some [0x00, 1] := by decide

/-- AL4: the two orders of the writes when x = F -/
theorem test_addReg_toVf :
    after 0x8F14 (regs [(15, 0x10), (1, 0x20)]) (reads [15]) = some [0x30] ∧
    after 0x8F14 (withCfg (fun c => { c with aluVfDest := .flagWins }) (regs [(15, 0x10), (1, 0x20)])) (reads [15]) =
      some [0x00] := by decide

/-- S5, AL6 -/
theorem test_sub :
    after 0x8125 (regs [(1, 0x05), (2, 0x0A)]) (reads [1, 15]) = some [0xFB, 0] ∧
    after 0x8125 (regs [(1, 0x07), (2, 0x07)]) (reads [1, 15]) = some [0x00, 0] := by decide

/-- AL11: the snapshot, y = F -/
theorem test_sub_fromVf : after 0x81F5 (regs [(15, 0x01), (1, 0x05)]) (reads [1, 15]) = some [0x04, 1] := by decide

/-- AL12, AL14 -/
theorem test_subn :
    after 0x8127 (regs [(1, 0x05), (2, 0x0A)]) (reads [1, 15]) = some [0x05, 1] ∧
    after 0x8127 (regs [(1, 0x09), (2, 0x09)]) (reads [1, 15]) = some [0x00, 0] := by decide

/-- AL17, AL18 -/
theorem test_shr :
    after 0x8106 (regs [(1, 0xFF)]) (reads [1, 15]) = some [0x7F, 1] ∧
    after 0x8126 (withCfg (fun c => { c with shiftSource := .vy }) (regs [(2, 0x03)])) (reads [1, 15]) =
      some [0x01, 1] := by decide

/-- AL22, AL23 -/
theorem test_shl :
    after 0x810E (regs [(1, 0xFF)]) (reads [1, 15]) = some [0xFE, 1] ∧
    after 0x812E (regs [(1, 0x01), (2, 0x80)]) (reads [1, 15]) = some [0x02, 0] := by decide

/-- AL30, and the one draw: the value of the draw itself is free. -/
theorem test_rnd : after 0xC300 (regs [(15, 0x55)]) (fun t => (t.readV 15, t.draws, t.pc)) = some (0x55, 1, 0x202) := by
  decide

/-! ### The address register, loads and stores (section 2.4) -/

/-- IM1 -/
theorem test_ldI : after 0xA123 State.reset State.I = some 0x0123 := by decide

/-- IM2, IM3 -/
theorem test_addI :
    after 0xF11E { regs [(1, 0x01), (15, 0x33)] with I := 0x0FFF } (fun t => (t.I, t.readV 15)) = some (0x1000, 0x33) ∧
    after 0xF11E { regs [(1, 0x02)] with I := 0xFFFF } State.I = some 0x0001 := by decide

/-- IM4, IM5 -/
theorem test_ldF :
    after 0xF229 (regs [(2, 0x0F)]) State.I = some 0x09B ∧
    after 0xF229 { regs [(2, 0x10)] with I := 0x0300 } (fun t => (record t, t.I)) =
      some (some ⟨.operandOutOfRange, 0x200, some 0xF229, none, some 0x10⟩, 0x0300) := by decide

/-- S11 -/
theorem test_ldB :
    after 0xF333 { regs [(3, 157)] with I := 0x300 } (fun t => [t.byteAt 0x300, t.byteAt 0x301, t.byteAt 0x302]) =
      some [1, 5, 7] := by decide

/-- IM8 -/
theorem test_ldB_pastEnd :
    after 0xF333 { regs [(3, 157)] with I := 0xFFE } (fun t => (t.byteAt 0xFFE, t.byteAt 0xFFF, record t)) =
      some (1, 5, some ⟨.outOfBounds, 0x200, some 0xF333, some 0x1000, none⟩) := by decide

/-- IM11 -/
theorem test_ldMemVx_pastEnd :
    after 0xF355 { regs [(0, 1), (1, 2), (2, 3), (3, 4)] with I := 0xFFE }
      (fun t => (t.byteAt 0xFFE, t.byteAt 0xFFF, t.I, record t)) =
      some (1, 2, 0xFFE, some ⟨.outOfBounds, 0x200, some 0xF355, some 0x1000, none⟩) := by decide

/-- IM12 -/
theorem test_ldMemVx_protected :
    after 0xF355 { State.reset with I := 0x1F0 } record =
      some (some ⟨.protectedRegionViolation, 0x200, some 0xF355, some 0x1F0, none⟩) := by decide

/-- IM13 -/
theorem test_ldVxMem :
    after 0xF465 { State.reset with I := 0x050 } (reads [0, 1, 2, 3, 4]) = some [0xF0, 0x90, 0x90, 0x90, 0xF0] := by
  decide

/-- IM14 -/
theorem test_ldVxMem_pastEnd :
    after 0xF165 (bytes 0xFFF [0xAB] { regs [(1, 0x77)] with I := 0xFFF }) (fun t => (reads [0, 1] t, record t)) =
      some ([0xAB, 0x77], some ⟨.outOfBounds, 0x200, some 0xF165, some 0x1000, none⟩) := by decide

/-! ### The display (section 2.5) -/

/-- DS1 -/
theorem test_cls :
    after 0x00E0 { regs [(15, 0x07)] with pix := (togglePixel blankDisplay 3 4).2 }
      (fun t => (lit [(3, 4)] t, t.readV 15)) = some ([false], 0x07) := by decide

/-- DS3: a wrap in both directions -/
theorem test_drw_wraps :
    after 0xD122 (bytes 0x300 [0xFF, 0xFF] { regs [(1, 62), (2, 31)] with I := 0x300 })
      (fun t => (lit [(62, 31), (5, 31), (62, 0), (5, 0), (6, 31), (61, 0)] t, t.readV 15)) =
      some ([true, true, true, true, false, false], 0) := by decide

/-- DS2, the second draw: 0x3C over 0xF0 -/
theorem test_drw_collides :
    after 0xD121 (bytes 0x301 [0x3C]
        { State.reset with I := 0x301, pix := (drawRow 0xF0 0 0 (false, blankDisplay)).2 })
      (fun t => (lit [(0, 0), (1, 0), (2, 0), (3, 0), (4, 0), (5, 0), (6, 0)] t, t.readV 15)) =
      some ([true, true, false, false, true, true, false], 1) := by decide

/-- DS6 -/
theorem test_drw_pastEnd :
    after 0xD122 (bytes 0xFFF [0x80] { regs [(15, 0x07)] with I := 0xFFF })
      (fun t => (lit [(0, 0)] t, t.readV 15, record t)) =
      some ([true], 0x07, some ⟨.outOfBounds, 0x200, some 0xD122, some 0x1000, none⟩) := by decide

/-! ### Keypad, timers and the other operations (sections 2.6, 2.7) -/

/-- KT1, KT3 -/
theorem test_skp :
    after 0xE49E { regs [(4, 0x0A)] with pc := 0x220, key := State.reset.key.set 10 true } State.pc = some 0x224 ∧
    after 0xE49E (regs [(4, 0x10)]) record =
      some (some ⟨.operandOutOfRange, 0x200, some 0xE49E, none, some 0x10⟩) := by decide

/-- KT1, KT2 -/
theorem test_sknp :
    after 0xE4A1 { regs [(4, 0x0A)] with pc := 0x220, key := State.reset.key.set 10 true } State.pc = some 0x222 ∧
    after 0xE4A1 { regs [(4, 0x0A)] with pc := 0x220 } State.pc = some 0x224 := by decide

/-- KT4 -/
theorem test_ldVxDt : after 0xF307 { State.reset with DT := 0x3C } (reads [3]) = some [0x3C] := by decide

/-- KT9, step 1 -/
theorem test_ldVxK :
    after 0xF30A { State.reset with key := State.reset.key.set 2 true } (fun t => (t.run, t.pc)) =
      some (.awaitingKey 3 (State.reset.key.set 2 true), 0x202) := by decide

/-- KT5 -/
theorem test_ldDt : after 0xF115 (regs [(1, 0x3C)]) State.DT = some 0x3C := by decide

/-- KT5 -/
theorem test_ldSt : after 0xF218 (regs [(2, 0x05)]) State.ST = some 0x05 := by decide

/-- KT10 -/
theorem test_wait_lowest :
    seen (fun t => (t.readV 3, t.run, t.pc))
        (step { State.reset with
          run := .awaitingKey 3 State.reset.key, key := (State.reset.key.set 5 true).set 3 true }) =
      some (3, .running, 0x200) := by decide

/-- KT9, step 2: a key that was held is not fresh -/
theorem test_wait_held :
    seen State.run
        (step { State.reset with
          run := .awaitingKey 3 (State.reset.key.set 2 true), key := State.reset.key.set 2 true }) =
      some (.awaitingKey 3 (State.reset.key.set 2 true)) := by decide

/-- KT6 -/
theorem test_tick :
    seen (fun t => (t.DT, t.ST)) (perform .tickTimers { State.reset with DT := 0x01, ST := 0xFF }) =
      some (0x00, 0xFE) := by decide

/-- EX1: a step in Faulted has no transition. -/
theorem test_step_faulted :
    step { State.reset with run := .faulted ⟨.stackOverflow, 0x200, some 0x2200, none, none⟩ } =
      .fault (.stopped ⟨.stackOverflow, 0x200, some 0x2200, none, none⟩) := rfl

/-- EX3: RomTooLarge, of more than 3584 bytes. -/
theorem test_loadRom_tooLarge : loadRom (List.replicate 3585 0xAA) State.reset = .fault .romTooLarge := by
  unfold loadRom
  rw [List.length_replicate]
  rfl

/-- EX4, of a short image: the bytes go to 0x200 and on. -/
theorem test_loadRom :
    seen (fun t => (t.byteAt 0x1FF, t.byteAt 0x200, t.byteAt 0x201, t.byteAt 0x202)) (loadRom [0x12, 0x34] State.reset) =
      some (0x00, 0x12, 0x34, 0x00) := by decide

/-- EX5: the font table in the reset memory. -/
theorem test_resetFont :
    [0x050, 0x054, 0x09F, 0x0A0].map State.reset.byteAt = [0xF0, 0xF0, 0x80, 0x00] := by decide

/-! ### Witnesses: what each statement assumes can be met -/

/-- A state that runs, with bytes stored, a pressed key and a live stack entry. -/
def busy : State :=
  { bytes 0x200 [0x12, 0x34] (regs [(0, 7), (1, 200), (2, 10)]) with
    SP := 1, stack := State.reset.stack.set 0 0x31A, key := State.reset.key.set 2 true, loadPhase := .started }

/-- A stopped core. -/
def stoppedRecord : FaultRecord := { kind := .stackUnderflow, pc := 0x200, opcode := some 0x00EE, addr := none, value := none }

theorem witness_DecodeOfEncode :
    Instr.wellFormed .strict (.drw 15 0 15) = true ∧ Instr.wellFormed .lax (.ret 15) = true := by decide

theorem witness_DecodedWord : decode .strict 0xF065 = .ok (.ldVxMem 0) ∧ decode .lax 0x512F = .ok (.seReg 1 2 15) := by
  decide

theorem witness_LaxDecode :
    (0x0FE0#16 &&& 0xF0FF = 0x00E0) ∧ (0x01EE#16 &&& 0xF0FF = 0x00EE) ∧ (0x512F#16 &&& 0xF000 = 0x5000) ∧
    (0x9FF1#16 &&& 0xF000 = 0x9000) ∧
    (0x00EF#16 &&& 0xF0FF ≠ 0x00E0 ∧ 0x00EF#16 &&& 0xF0FF ≠ 0x00EE ∧ 0x00EF#16 &&& 0xF000 ≠ 0x5000 ∧
      0x00EF#16 &&& 0xF000 ≠ 0x9000) := by decide

/-- The last word of memory under `fault`, and an odd address under `fetch`. -/
theorem witness_StepRuns :
    (let s := withCfg (fun c => { c with misalignedFetch := .fault }) { State.reset with pc := 0xFFE, mem := [(0xFFE, 0x12)] }
     s.run = .running ∧ s.pc.toNat + 1 < 4096 ∧ (s.cfg.misalignedFetch = .fault → s.pc.toNat % 2 = 0) ∧
     decode s.cfg.decodeDontCare
       (BitVec.ofNat 16 ((s.byteAt s.pc.toNat).toNat * 256 + (s.byteAt (s.pc.toNat + 1)).toNat)) = .ok (.jp 0x200)) ∧
    (let s : State := { State.reset with pc := 0x201, mem := [(0x201, 0x60)] }
     s.run = .running ∧ s.pc.toNat + 1 < 4096 ∧ (s.cfg.misalignedFetch = .fault → s.pc.toNat % 2 = 0) ∧
     decode s.cfg.decodeDontCare
       (BitVec.ofNat 16 ((s.byteAt s.pc.toNat).toNat * 256 + (s.byteAt (s.pc.toNat + 1)).toNat)) =
         .ok (.ldImm 0 0)) := by decide

/-- The premises of `Obligations.UnmatchedWordRaisesUnknownOpcode` but the two on the word, which are below. -/
def fetches (s : State) (w : Word) : Prop :=
  s.run = .running ∧ s.pc.toNat + 1 < 4096 ∧ (s.cfg.misalignedFetch = .fault → s.pc.toNat % 2 = 0) ∧
  w = BitVec.ofNat 16 ((s.byteAt s.pc.toNat).toNat * 256 + (s.byteAt (s.pc.toNat + 1)).toNat)

/-- Empty memory right after reset, under strict. -/
theorem witness_UnmatchedWord_strict :
    fetches State.reset 0x0000 ∧ (∀ r : Mnemonic, 0x0000#16 &&& r.matchAndMask.2 ≠ r.matchAndMask.1) ∧
    State.reset.cfg.decodeDontCare ≠ .lax :=
  ⟨⟨by decide, by decide, by decide, by decide⟩, fun r => by cases r <;> decide, by decide⟩

/-- FD5's word 8008 in the last two bytes of memory, under lax. -/
theorem witness_UnmatchedWord_lax :
    let s := withCfg (fun c => { c with decodeDontCare := .lax })
      { State.reset with pc := 0xFFE, mem := [(0xFFE, 0x80), (0xFFF, 0x08)] }
    fetches s 0x8008 ∧ (∀ r : Mnemonic, 0x8008#16 &&& r.matchAndMask.2 ≠ r.matchAndMask.1) ∧
    s.cfg.decodeDontCare = .lax ∧ 0x8008#16 &&& 0xF0FF ≠ 0x00E0 ∧ 0x8008#16 &&& 0xF0FF ≠ 0x00EE ∧
    0x8008#16 &&& 0xF000 ≠ 0x5000 ∧ 0x8008#16 &&& 0xF000 ≠ 0x9000 :=
  ⟨⟨by decide, by decide, by decide, by decide⟩, fun r => by cases r <;> decide, by decide, by decide, by decide,
    by decide, by decide⟩

/-- One state for each of the three causes, at the boundary addresses. -/
theorem witness_FetchFault :
    (let s := withCfg (fun c => { c with misalignedFetch := .fault }) { State.reset with pc := 0xFFF }
     s.run = .running ∧ s.cfg.misalignedFetch = .fault ∧ s.pc.toNat % 2 = 1) ∧
    (let s : State := { State.reset with pc := 0x1000 }
     s.run = .running ∧ ¬ (s.cfg.misalignedFetch = .fault ∧ s.pc.toNat % 2 = 1) ∧ 4096 ≤ s.pc.toNat) ∧
    (let s : State := { State.reset with pc := 0xFFF }
     s.run = .running ∧ ¬ (s.cfg.misalignedFetch = .fault ∧ s.pc.toNat % 2 = 1) ∧ s.pc.toNat = 4095) := by decide

theorem witness_FaultRecordNamesTheFetchedWord :
    State.reset.run = .running ∧ (∃ t rec, step State.reset = .next t ∧ t.run = .faulted rec) ∧
    (∃ t rec, step { State.reset with pc := 0xFFF } = .next t ∧ t.run = .faulted rec) :=
  ⟨rfl, ⟨_, _, rfl, rfl⟩, ⟨_, _, rfl, rfl⟩⟩

theorem witness_PcAfterStep :
    busy.run = .running ∧ fetch busy = .ok 0x1234 ∧ decode busy.cfg.decodeDontCare 0x1234 = .ok (.jp 0x234) ∧
    ∃ t, step busy = .next t ∧ ∀ rec, t.run ≠ .faulted rec :=
  ⟨by decide, by decide, by decide, _, rfl, fun _ h => nomatch h⟩

/-- A core in each of the three run states. -/
theorem witness_OnlyAFaultedCoreStops :
    (∀ rec, busy.run ≠ .faulted rec) ∧
    (∀ rec, ({ busy with run := .awaitingKey 3 busy.key } : State).run ≠ .faulted rec) ∧
    ({ busy with run := .faulted stoppedRecord } : State).run = .faulted stoppedRecord :=
  ⟨(fun _ h => nomatch h), (fun _ h => nomatch h), rfl⟩

/-- Each side of the two stack checks at its boundary. -/
theorem witness_StackChecks :
    State.reset.SP.val = 0 ∧ busy.SP.val ≠ 0 ∧ ({ busy with SP := 16 } : State).SP.val = 16 ∧
    ({ busy with SP := 15 } : State).SP.val < 16 := by decide

/-- Each compare with its condition met and not met, and a digit that strict decoding refuses. -/
theorem witness_Compares :
    busy.readV 0 = 7 ∧ busy.readV 0 ≠ 8 ∧ busy.readV 3 = busy.readV 4 ∧ busy.readV 0 ≠ busy.readV 1 ∧
    (1 : Nibble) ≠ 0 ∧ busy.cfg.decodeDontCare = .strict := by decide

/-- x other than F, and x = F under each policy. -/
theorem witness_WritesBack :
    (1 : Reg) ≠ VF ∧ (15 : Reg) = VF ∧ busy.cfg.aluVfDest = .resultWins ∧
    (withCfg (fun c => { c with aluVfDest := .flagWins }) busy).cfg.aluVfDest = .flagWins ∧
    (withCfg (fun c => { c with aluVfDest := .any }) busy).cfg.aluVfDest = .any := by decide

theorem witness_Shifts :
    ((busy.cfg.shiftSource = .vx → 200 = (busy.readV 1).toNat) ∧ (busy.cfg.shiftSource = .vy → 200 = (busy.readV 2).toNat)) ∧
    (let s := withCfg (fun c => { c with shiftSource := .vy }) busy
     (s.cfg.shiftSource = .vx → 10 = (s.readV 1).toNat) ∧ (s.cfg.shiftSource = .vy → 10 = (s.readV 2).toNat)) := by decide

theorem witness_Rnd : (0x0F#8).getLsbD 7 = false ∧ (3 : Reg) ≠ 4 := by decide

/-- A sprite whose last row is the last byte of memory. -/
theorem witness_OldVf :
    (1 : Reg) ≠ VF ∧ (2 : Reg) ≠ VF ∧
    ({ busy with I := 0xFF1 } : State).I.toNat + (15 : Nibble).val ≤ 4096 := by decide

theorem witness_LdF : ((regs [(2, 15)]).readV 2).toNat ≤ 15 ∧ 15 < ((regs [(2, 16)]).readV 2).toNat := by decide

/-- The four boundary addresses of a three-byte store, over memory in its form. -/
theorem witness_LdB :
    Memory.wf busy.cfg busy.mem ∧
    (let a := ({ busy with I := 0x200 } : State).effAddr 0; 0x200 ≤ a ∧ a + 2 < 4096) ∧
    (let a := ({ busy with I := 0xFFD } : State).effAddr 0; 0x200 ≤ a ∧ a + 2 < 4096) ∧
    ({ busy with I := 0x1FF } : State).effAddr 0 < 0x200 ∧
    4096 ≤ ({ busy with I := 0xFFE } : State).effAddr 0 + 2 := by decide

/-- The boundary addresses of a store and a load of sixteen registers, and a register on each side of x. -/
theorem witness_LdMemVx_LdVxMem :
    Memory.wf busy.cfg busy.mem ∧
    (let a := ({ busy with I := 0xFF0 } : State).effAddr 0; 0x200 ≤ a ∧ a + (15 : Reg).val < 4096) ∧
    ({ busy with I := 0x1FF } : State).effAddr 0 < 0x200 ∧
    4096 ≤ ({ busy with I := 0xFF1 } : State).effAddr 0 + (15 : Reg).val ∧
    (3 : Reg) ≤ 3 ∧ ¬ (4 : Reg) ≤ 3 ∧ 0xFF1 + (14 : Reg).val < 4096 := by decide

theorem witness_MemoryPrimitives :
    Memory.wf busy.cfg busy.mem ∧ 4096 ≤ 4096 ∧ 4095 < 4096 ∧ 0x1FF < 0x200 ∧ (0x200 ≤ 0x200 ∧ 0x200 < 4096) ∧
    (0x200 ≤ 4095 ∧ 4095 < 4096) ∧ 0x201 ≠ 0x200 := by decide

/-- Two registers at the last even address, with odd fetches faulting. -/
theorem witness_StoreThenLoad_StoredWordIsFetched :
    let s := withCfg (fun c => { c with misalignedFetch := .fault }) { busy with I := 0xFFE }
    Memory.wf s.cfg s.mem ∧ (1 : Reg) ≤ 1 ∧ 0x200 ≤ s.I.toNat ∧ s.I.toNat + (1 : Reg).val < 4096 ∧
    (s.cfg.misalignedFetch = .fault → s.I.toNat % 2 = 0) := by decide

theorem witness_PlacedWord :
    Memory.wf busy.cfg busy.mem ∧ busy.fetchable = true ∧ ({ busy with pc := 0xFFF } : State).fetchable = false := by decide

/-- The sprite row 0x12 at 0x200: drawn at column 62 its column 3 wraps to pixel column 1; its column 2 is clear. -/
theorem witness_Covers : Covers { busy with I := 0x200 } 62 31 1 1 31 ∧ ¬ Covers { busy with I := 0x200 } 62 31 1 0 31 := by
  refine ⟨⟨0, 3, by decide, by decide, by decide, by decide, by decide⟩, ?_⟩
  rintro ⟨r, c, hr, hc, hX, -, hb⟩
  obtain rfl : r = 0 := by omega
  obtain rfl : c = 2 := by
    have : (0 : Fin 64).val = 0 := rfl
    omega
  exact absurd hb (by decide)

/-- The forms of Dxyn: no rows, the last byte of memory, and one row past it; a covered pixel lit and unlit. -/
theorem witness_Drw :
    ((0 : Nibble) = 0) ∧ ({ busy with I := 0xFF1 } : State).effAddr 0 + (15 : Nibble).val ≤ 4096 ∧
    ((15 : Nibble) ≠ 0 ∧ 4096 < ({ busy with I := 0xFF2 } : State).effAddr 0 + (15 : Nibble).val) ∧
    pixelAt (togglePixel blankDisplay 1 31).2 1 31 = true ∧ pixelAt blankDisplay 1 31 = false := by decide

theorem witness_DrwTwice :
    (1 : Reg) ≠ VF ∧ (2 : Reg) ≠ VF ∧ ({ busy with I := 0x200 } : State).I.toNat + (1 : Nibble).val ≤ 4096 ∧
    ∀ X Y, Covers { busy with I := 0x200 } 200 10 1 X Y → pixelAt busy.pix X Y = false :=
  ⟨by decide, by decide, by decide, fun X Y _ => by
    show (busy.pix[Y.val])[X.val] = false
    simp [busy, bytes, putBytes, regs, State.putByte, State.setMem, State.writeV, State.reset, State.resetWith]⟩

/-- A key code at its largest, the key pressed and not, and the smallest value that is none. -/
theorem witness_KeySkips :
    ((regs [(4, 15)]).readV 4).toNat = (15 : Fin 16).val ∧ (busy.key[2]) = true ∧ (busy.key[15]) = false ∧
    15 < ((regs [(4, 16)]).readV 4).toNat := by decide

theorem witness_WaitStep :
    (let s : State := { busy with run := .awaitingKey 3 busy.key }
     s.run = .awaitingKey 3 busy.key ∧ ∀ k, ¬ Fresh s.key busy.key k) ∧
    (let s : State := { busy with run := .awaitingKey 3 State.reset.key }
     s.run = .awaitingKey 3 State.reset.key ∧ ∃ k, Fresh s.key State.reset.key k) ∧
    State.reset.cfg.keySelect = .lowest := by
  refine ⟨⟨rfl, ?_⟩, ⟨rfl, 2, ?_⟩, rfl⟩
  · rintro k ⟨h1, h2⟩
    simp_all
  · exact ⟨by decide, by decide⟩

/-- An instruction that writes one register, and one that it may not write. -/
theorem witness_RegistersAreWritten :
    (∃ t, exec (.ldImm 3 5) busy = .next t) ∧ mayWriteV (.ldImm 3 5) 4 = false := ⟨⟨_, rfl⟩, rfl⟩

/-- Each kind of state is changed by an instruction that the statement lists; the run state by Fx0A and by a raise. -/
theorem witness_StateIsWritten :
    (∃ t, exec (.jp 5) busy = .next t ∧ t.pc ≠ busy.pc) ∧
    (∃ t, exec (.ldI 5) busy = .next t ∧ t.I ≠ busy.I) ∧ (∃ t, exec (.ldDt 0) busy = .next t ∧ t.DT ≠ busy.DT) ∧
    (∃ t, exec (.ldSt 0) busy = .next t ∧ t.ST ≠ busy.ST) ∧
    (∃ t, exec (.drw 3 3 1) { busy with I := 0x200 } = .next t ∧ t.pix ≠ busy.pix) ∧
    (∃ t, exec (.call 5) busy = .next t ∧ t.SP ≠ busy.SP ∧ t.stack ≠ busy.stack) ∧
    (∃ t, exec (.ldMemVx 0) { busy with I := 0x300 } = .next t ∧ t.mem ≠ busy.mem) ∧
    (∃ t, exec (.ldVxK 3) busy = .next t ∧ t.run ≠ busy.run) ∧
    (∃ t, exec (.ret 0) State.reset = .next t ∧ t.run ≠ State.reset.run) ∧
    (∃ t, exec (.rnd 0 0) busy = .next t ∧ t.draws ≠ busy.draws) := by
  refine ⟨⟨_, rfl, ?_⟩, ⟨_, rfl, ?_⟩, ⟨_, rfl, ?_⟩, ⟨_, rfl, ?_⟩, ⟨_, rfl, fun h => ?_⟩, ⟨_, rfl, ?_, fun h => ?_⟩,
    ⟨_, rfl, ?_⟩, ⟨_, rfl, fun h => nomatch h⟩, ⟨_, rfl, fun h => nomatch h⟩, ⟨_, rfl, ?_⟩⟩
  · decide
  · decide
  · decide
  · decide
  · exact absurd (congrArg (fun d => pixelAt d 3 0) h) (by decide)
  · decide
  · exact absurd (congrArg (fun v : Vector Word 16 => v[1]) h) (by decide)
  · decide
  · decide

theorem witness_InstructionsRaise :
    State.reset.run = .running ∧ ∃ t rec, exec (.ret 0) State.reset = .next t ∧ t.run = .faulted rec :=
  ⟨rfl, _, _, rfl, rfl⟩

/-- A busy state meets the invariant and has a next step; so do the states after it. -/
theorem witness_Inv : busy.Inv where
  memWf := by decide
  reserved := by decide
  pcBound := by decide
  stackBound := by decide
  notRunning := fun h => absurd rfl h
  record := fun _ h => nomatch h

theorem witness_StepKeepsTheInvariant : ∃ t, step busy = .next t := ⟨_, rfl⟩

/-- An address in the font table, one below it and one above it, in the reserved region. -/
theorem witness_ReservedRegion :
    (0x09F < 0x200 ∧ 0x09F = busy.cfg.fontBase.val + 79) ∧ 0x04F < busy.cfg.fontBase.val ∧
    (0x1FF < 0x200 ∧ busy.cfg.fontBase.val + 80 ≤ 0x1FF) := by decide

theorem witness_OnlyResetLeavesFaulted :
    let s : State := { busy with run := .faulted stoppedRecord }
    s.run = .faulted stoppedRecord ∧ s.loadPhase = .started ∧
    ∀ o ∈ [Operation.step, .tickTimers, .setPressed 3 true, .loadRom [1]], o ≠ .reset :=
  ⟨rfl, rfl, by decide⟩

/-- Two different states with the same live entries. -/
theorem witness_DeadStack :
    SameLiveStack busy { busy with stack := busy.stack.set 1 0x555 } ∧ busy.stack[1] ≠ 0x555 ∧
    ∃ t, perform .step busy = .next t :=
  ⟨⟨rfl, by decide⟩, by decide, _, rfl⟩

/-- 0x1200 at 0x200. -/
theorem witness_NormalEnd : NormalEnd (bytes 0x200 [0x12] State.reset) := ⟨rfl, 0x1200, by decide, by decide⟩

/-- The longest image that is loaded, the shortest that is not, and a core that no longer loads. -/
theorem witness_LoadRom :
    Memory.wf State.reset.cfg State.reset.mem ∧ State.reset.loadPhase = .awaitingRom ∧
    (List.replicate 3584 (0xAA : Byte)).length ≤ 3584 ∧ 3584 < (List.replicate 3585 (0xAA : Byte)).length ∧
    busy.loadPhase ≠ .awaitingRom :=
  ⟨by decide, rfl, Nat.le_of_eq List.length_replicate, Nat.lt_of_lt_of_eq (by decide) List.length_replicate.symm,
    by decide⟩

end Sys2Proof.Tests
end

section
/-! PROOFS. MemRead and MemWrite, the memory primitives (20_memory.md R51, R52). -/

namespace Sys2Proof.Machine

/-- A write to a writable address answers a state that differs in memory only, and there in that one byte only. -/
theorem memWrite_spec {s : State} {a : Nat} (hwf : Memory.wf s.cfg s.mem) (hlo : protectedLimit ≤ a)
    (hhi : a < memSize) (b : Byte) :
    ∃ t, s.memWrite a b = .ok t ∧ t = { s with mem := t.mem } ∧
      t.byteAt a = b ∧ ∀ c, c ≠ a → t.byteAt c = s.byteAt c :=
  ⟨s.putByte a b, memWrite_ok hlo hhi b, putByte_eq a b, byteAt_putByte_same hwf a b,
    fun _ hne => byteAt_putByte_other b hne⟩

/-- Settles O32: each clause is one case of the address against the protected limit and the size of memory. -/
theorem memoryPrimitivesReadAndWriteBytes : Obligations.MemoryPrimitivesReadAndWriteBytes := by
  intro s a b hwf
  refine ⟨?readAbove, ?readBelow, ?writeProtected, ?writeAbove, ?writeBetween⟩
  case readAbove => exact memRead_error
  case readBelow => exact memRead_ok
  case writeProtected => exact fun h => memWrite_protected h b
  case writeAbove => exact fun h => memWrite_outOfBounds h b
  case writeBetween => exact fun hlo hhi => memWrite_spec hwf hlo hhi b

end Sys2Proof.Machine
end

section
/-! PROOFS. The opcode map (30_encoding.md R74): a masked word in the fields of R71, and the rows that strict decoding
answers. -/

namespace Sys2Proof

/-! ### A masked word in the fields of R71 -/

/-- A word is the number that its four digits write. -/
theorem toNat_eq_fields (w : Word) :
    w.toNat = (opField w).val * 0x1000 + (xField w).val * 0x100 + (yField w).val * 0x10 + (nField w).val := by
  have := w.isLt
  simp only [opField, xField, yField, nField, nibbleAt_val]
  omega

/-- The low byte is the number that the two low digits write. -/
theorem kkField_toNat (w : Word) : (kkField w).toNat = (yField w).val * 0x10 + (nField w).val := by
  simp only [kkField, yField, nField, nibbleAt_val, BitVec.toNat_ofNat]
  omega

theorem nibbleAt_and_val (v w : Word) (lo : Nat) :
    (nibbleAt (v &&& w) lo).val = (nibbleAt v lo).val &&& (nibbleAt w lo).val := by
  simp only [nibbleAt_val, BitVec.toNat_and, Nat.and_div_two_pow]
  exact Nat.and_mod_two_pow (n := 4)

/-- A masked word is the number that its masked digits write. -/
theorem toNat_and_eq_fields (w mask : Word) :
    (w &&& mask).toNat =
      ((opField w).val &&& (opField mask).val) * 0x1000 + ((xField w).val &&& (xField mask).val) * 0x100 +
      ((yField w).val &&& (yField mask).val) * 0x10 + ((nField w).val &&& (nField mask).val) := by
  rw [toNat_eq_fields]
  simp only [opField, xField, yField, nField, nibbleAt_and_val]

/-- The mask digit F keeps a digit (and the mask digit 0 clears it, `Nat.and_zero`). -/
theorem digit_and_F (d : Nibble) : d.val &&& 0xF = d.val := by
  rw [Nat.and_two_pow_sub_one_eq_mod _ 4]
  exact Nat.mod_eq_of_lt d.isLt

/-- The patterns that fix the top digit: `1nnn`. -/
theorem and_F000_eq_iff {w row : Word} (h : row.toNat % 0x1000 = 0) :
    w &&& 0xF000#16 = row ↔ (opField w).val = row.toNat / 0x1000 := by
  have hmask : (w &&& 0xF000#16).toNat = (_ &&& 0xF) * 0x1000 + (_ &&& 0) * 0x100 + (_ &&& 0) * 0x10 + (_ &&& 0) :=
    toNat_and_eq_fields w _
  simp only [digit_and_F, Nat.and_zero] at hmask
  rw [← BitVec.toNat_inj, hmask]
  omega

/-- The patterns that fix the top and the low digit: `8xy5`. -/
theorem and_F00F_eq_iff {w row : Word} (h : row.toNat / 0x10 % 0x100 = 0) :
    w &&& 0xF00F#16 = row ↔ (opField w).val = row.toNat / 0x1000 ∧ (nField w).val = row.toNat % 0x10 := by
  have hmask : (w &&& 0xF00F#16).toNat = (_ &&& 0xF) * 0x1000 + (_ &&& 0) * 0x100 + (_ &&& 0) * 0x10 + (_ &&& 0xF) :=
    toNat_and_eq_fields w _
  simp only [digit_and_F, Nat.and_zero] at hmask
  rw [← BitVec.toNat_inj, hmask]
  omega

/-- The patterns that fix the top digit and the low byte: `Fx07`. -/
theorem and_F0FF_eq_iff {w row : Word} (h : row.toNat / 0x100 % 0x10 = 0) :
    w &&& 0xF0FF#16 = row ↔ (opField w).val = row.toNat / 0x1000 ∧ (kkField w).toNat = row.toNat % 0x100 := by
  have hmask : (w &&& 0xF0FF#16).toNat =
      (_ &&& 0xF) * 0x1000 + (_ &&& 0) * 0x100 + (_ &&& 0xF) * 0x10 + (_ &&& 0xF) := toNat_and_eq_fields w _
  simp only [digit_and_F, Nat.and_zero] at hmask
  rw [← BitVec.toNat_inj, hmask, kkField_toNat]
  omega

/-- The patterns that fix every digit: `00E0`. -/
theorem and_FFFF_eq_iff {w row : Word} :
    w &&& 0xFFFF#16 = row ↔ (opField w).val = row.toNat / 0x1000 ∧ (xField w).val = row.toNat / 0x100 % 0x10 ∧
      (kkField w).toNat = row.toNat % 0x100 := by
  have hmask : w &&& 0xFFFF#16 = w := BitVec.and_allOnes
  rw [hmask, ← BitVec.toNat_inj, toNat_eq_fields, kkField_toNat]
  omega

/-! ### The rows that strict decoding answers -/

theorem selects_iff (r : Mnemonic) (w : Word) :
    r.selects w = true ↔ w &&& r.matchAndMask.2 = r.matchAndMask.1 := beq_iff_eq

theorem checked_eq_ok_iff {m : DecodeDontCare} {w : Word} {i j : Instr} :
    checked m w i = .ok j ↔ i.wellFormed m = true ∧ i = j := by
  unfold checked
  split <;> simp_all

/-- A word that a row selects decodes to an instruction of that row: the digits that the row's mask covers lead both
levels of the dispatch to it. -/
theorem decode_strict_of_selects {w : Word} {r : Mnemonic} (h : r.selects w = true) :
    ∃ i, decode .strict w = .ok i ∧ i.mnemonic = r := by
  rw [selects_iff] at h
  revert h
  cases r <;>
    simp +contextual [Mnemonic.matchAndMask, and_F000_eq_iff, and_F00F_eq_iff, and_F0FF_eq_iff, and_FFFF_eq_iff,
      decode, decodeGroup0, decodeGroup8, decodeGroupE, decodeGroupF, checked, Instr.wellFormed, Instr.mnemonic]

section
variable {w : Word} {i : Instr}

theorem selects_of_decodeGroup0 (hop : (opField w).val = 0x0) (h : decodeGroup0 .strict w = .ok i) :
    i.mnemonic.selects w = true := by
  unfold decodeGroup0 at h
  split at h
  case h_3 => cases h
  all_goals
    obtain ⟨hx, rfl⟩ := checked_eq_ok_iff.mp h
    simp_all [selects_iff, Instr.mnemonic, Mnemonic.matchAndMask, and_FFFF_eq_iff, Instr.wellFormed]

theorem selects_of_decodeGroup8 (hop : (opField w).val = 0x8) (h : decodeGroup8 w = .ok i) :
    i.mnemonic.selects w = true := by
  unfold decodeGroup8 at h
  split at h <;> cases h <;> simp [selects_iff, Instr.mnemonic, Mnemonic.matchAndMask, and_F00F_eq_iff, *]

theorem selects_of_decodeGroupE (hop : (opField w).val = 0xE) (h : decodeGroupE w = .ok i) :
    i.mnemonic.selects w = true := by
  unfold decodeGroupE at h
  split at h <;> cases h <;> simp [selects_iff, Instr.mnemonic, Mnemonic.matchAndMask, and_F0FF_eq_iff, *]

theorem selects_of_decodeGroupF (hop : (opField w).val = 0xF) (h : decodeGroupF w = .ok i) :
    i.mnemonic.selects w = true := by
  unfold decodeGroupF at h
  split at h <;> cases h <;> simp [selects_iff, Instr.mnemonic, Mnemonic.matchAndMask, and_F0FF_eq_iff, *]

/-- The row of the instruction that a word decodes to selects the word. -/
theorem selects_of_decode_strict (h : decode .strict w = .ok i) : i.mnemonic.selects w = true := by
  unfold decode at h
  split at h
  case h_1 hop => exact selects_of_decodeGroup0 hop h
  case h_9 hop => exact selects_of_decodeGroup8 hop h
  case h_15 hop => exact selects_of_decodeGroupE hop h
  case h_16 hop => exact selects_of_decodeGroupF hop h
  case h_6 | h_10 =>
    obtain ⟨hn, rfl⟩ := checked_eq_ok_iff.mp h
    simp_all [selects_iff, Instr.mnemonic, Mnemonic.matchAndMask, and_F00F_eq_iff, Instr.wellFormed]
  case h_17 => cases h
  all_goals
    cases h
    simp [selects_iff, Instr.mnemonic, Mnemonic.matchAndMask, and_F000_eq_iff, *]

end

theorem decode_strict_iff_selects (w : Word) (r : Mnemonic) :
    (∃ i, decode .strict w = .ok i ∧ i.mnemonic = r) ↔ r.selects w = true := by
  constructor
  · rintro ⟨i, hi, rfl⟩
    exact selects_of_decode_strict hi
  · exact decode_strict_of_selects

/-- Two rows that select one word are both the row of what it decodes to. -/
theorem selects_unique {w : Word} {r r' : Mnemonic} (h : r.selects w = true) (h' : r'.selects w = true) : r = r' := by
  obtain ⟨i, hi, rfl⟩ := decode_strict_of_selects h
  obtain ⟨i', hi', rfl⟩ := decode_strict_of_selects h'
  have hii' : i = i' := Except.ok.inj (hi.symm.trans hi')
  rw [hii']

/-- Settles O4: strict decoding answers the rows that select the word, and it answers at most one. -/
theorem strictDecodeFollowsTheOpcodeMap : Obligations.StrictDecodeFollowsTheOpcodeMap := by
  constructor
  · intro w r
    rw [decode_strict_iff_selects, selects_iff]
  · exact fun _ _ _ => selects_unique

end Sys2Proof
end

section
/-! PROOFS. Jumps and compares (41_control_flow.md R102, R104-R107): what their words read as, and what they do to pc. -/

namespace Sys2Proof.Machine

/-! ### The words of JP and the compares -/

theorem readsAs_jp (nnn : Addr12) : ReadsAs (0x1000 + nnn.toNat) (.jp nnn) := by
  intro m
  change decode m (digitAddr 0x1 nnn) = .ok (.jp nnn)
  obtain ⟨hop, hnnn⟩ := fields_digitAddr (op := 0x1) (by decide) nnn
  simp only [decode, hop, hnnn]

theorem readsAs_seImm (x : Reg) (kk : Byte) : ReadsAs (0x3000 + x.val * 256 + kk.toNat) (.seImm x kk) := by
  intro m
  change decode m (digitRegByte 0x3 x kk) = .ok (.seImm x kk)
  obtain ⟨hop, hx, hkk⟩ := fields_digitRegByte (op := 0x3) (by decide) x kk
  simp only [decode, hop, hx, hkk]

theorem readsAs_sneImm (x : Reg) (kk : Byte) : ReadsAs (0x4000 + x.val * 256 + kk.toNat) (.sneImm x kk) := by
  intro m
  change decode m (digitRegByte 0x4 x kk) = .ok (.sneImm x kk)
  obtain ⟨hop, hx, hkk⟩ := fields_digitRegByte (op := 0x4) (by decide) x kk
  simp only [decode, hop, hx, hkk]

/-- A word of group 5 is a compare when its digit n is allowed (30_encoding.md R75, R76). -/
theorem decode_digits_5 (m : DecodeDontCare) (x y : Reg) (d : Nibble) :
    decode m (digits 0x5 x y d) = checked m (digits 0x5 x y d) (.seReg x y d) := by
  obtain ⟨hop, hx, hy, hn⟩ := fields_digits (op := 0x5) (by decide) x y d
  simp only [decode, hop, hx, hy, hn]

/-- A word of group 9 is a compare when its digit n is allowed (30_encoding.md R75, R76). -/
theorem decode_digits_9 (m : DecodeDontCare) (x y : Reg) (d : Nibble) :
    decode m (digits 0x9 x y d) = checked m (digits 0x9 x y d) (.sneReg x y d) := by
  obtain ⟨hop, hx, hy, hn⟩ := fields_digits (op := 0x9) (by decide) x y d
  simp only [decode, hop, hx, hy, hn]

theorem readsAs_seReg (x y : Reg) : ReadsAs (0x5000 + x.val * 256 + y.val * 16) (.seReg x y 0) := fun m =>
  (decode_digits_5 m x y 0).trans (checked_eq_ok_iff.2 ⟨by simp [Instr.wellFormed], rfl⟩)

theorem readsAs_sneReg (x y : Reg) : ReadsAs (0x9000 + x.val * 256 + y.val * 16) (.sneReg x y 0) := fun m =>
  (decode_digits_9 m x y 0).trans (checked_eq_ok_iff.2 ⟨by simp [Instr.wellFormed], rfl⟩)

/-- A word whose fixed digits are not the pattern's raises UnknownOpcode (30_encoding.md R75). -/
theorem dispatchWord_illFormed {s : State} {w : Word} {i : Instr}
    (hdec : decode s.cfg.decodeDontCare w = checked s.cfg.decodeDontCare w i)
    (hill : i.wellFormed s.cfg.decodeDontCare = false) (a : Word) :
    ∃ t rec, dispatchWord a w s = .next t ∧ t.run = .faulted rec ∧ rec.kind = .unknownOpcode := by
  have hunknown : decode s.cfg.decodeDontCare w = .error (.unknownOpcode w) := by
    rw [hdec, checked, hill, if_neg Bool.false_ne_true]
  exact ⟨unknownOpcode a w s, _, by simp only [dispatchWord, hunknown], rfl, rfl⟩

/-! ### The moves of pc -/

@[simp] theorem addrOperand_toNat (nnn : Addr12) : (addrOperand nnn).toNat = nnn.toNat :=
  BitVec.toNat_setWidth_of_le (by decide)

/-- An instruction that skips on `c` moves pc past one word, modulo 65536, exactly when `c` holds, and changes nothing
else (R100). -/
theorem skips_of_exec_eq_skipIf {i : Instr} {s : State} {c : Bool} {p : Prop} (hexec : exec i s = .next (s.skipIf c))
    (hc : c = true ↔ p) :
    ∃ t, exec i s = .next t ∧ t = { s with pc := t.pc } ∧
      (p → t.pc.toNat = (s.pc.toNat + 2) % 65536) ∧ (¬ p → t.pc = s.pc) := by
  refine ⟨_, hexec, ?_⟩
  rw [← hc]
  cases c with
  | true => exact ⟨rfl, fun _ => BitVec.toNat_add s.pc 2, fun h => absurd rfl h⟩
  | false => exact ⟨rfl, fun h => absurd h Bool.false_ne_true, fun _ => rfl⟩

/-- Settles O13: the address, widened to a word, is the same number. -/
theorem jpSetsPcToItsAddress : Obligations.JpSetsPcToItsAddress := fun nnn s =>
  ⟨readsAs_jp nnn, s.setPc (addrOperand nnn), rfl, addrOperand_toNat nnn, rfl⟩

/-- Settles O16: each compare is a skip on a Boolean test that decides its condition, and the two that fix the digit n
check it at decode. -/
theorem comparesSkipOneWord : Obligations.ComparesSkipOneWord := by
  intro x y kk d s skips unknown
  refine ⟨⟨readsAs_seImm x kk, ?seImm⟩, ⟨readsAs_sneImm x kk, ?sneImm⟩, ⟨readsAs_seReg x y, ?seReg⟩,
    ⟨readsAs_sneReg x y, ?sneReg⟩, fun hd => ⟨fun hstrict => ?illFormed5, fun hstrict => ?illFormed9⟩⟩
  case seImm => exact skips_of_exec_eq_skipIf rfl beq_iff_eq
  case sneImm => exact skips_of_exec_eq_skipIf rfl bne_iff_ne
  case seReg => exact skips_of_exec_eq_skipIf rfl beq_iff_eq
  case sneReg => exact skips_of_exec_eq_skipIf rfl bne_iff_ne
  case illFormed5 => exact dispatchWord_illFormed (decode_digits_5 _ x y d) (by simp [Instr.wellFormed, hstrict, hd])
  case illFormed9 => exact dispatchWord_illFormed (decode_digits_9 _ x y d) (by simp [Instr.wellFormed, hstrict, hd])

end Sys2Proof.Machine
end

section
/-! PROOFS. The loads, the immediate add and the logicals (42_alu.md R124-R129): what their words read as, what the
operators give, and that only Vx is written. -/

namespace Sys2Proof.Machine

/-! ### The words of the register instructions -/

theorem readsAs_ldImm (x : Reg) (kk : Byte) : ReadsAs (0x6000 + x.val * 256 + kk.toNat) (.ldImm x kk) := by
  intro m
  change decode m (digitRegByte 0x6 x kk) = .ok (.ldImm x kk)
  obtain ⟨hop, hx, hkk⟩ := fields_digitRegByte (op := 0x6) (by decide) x kk
  simp only [decode, hop, hx, hkk]

theorem readsAs_addImm (x : Reg) (kk : Byte) : ReadsAs (0x7000 + x.val * 256 + kk.toNat) (.addImm x kk) := by
  intro m
  change decode m (digitRegByte 0x7 x kk) = .ok (.addImm x kk)
  obtain ⟨hop, hx, hkk⟩ := fields_digitRegByte (op := 0x7) (by decide) x kk
  simp only [decode, hop, hx, hkk]

/-- A word of group 8 reads as what the second level of the dispatch answers on its digits (30_encoding.md R74, R81). -/
theorem readsAs_of_decodeGroup8 {x y : Reg} {n : Nibble} {i : Instr}
    (hgroup : ∀ w, xField w = x → yField w = y → nField w = n → decodeGroup8 w = .ok i) :
    ReadsAs (0x8000 + n.val + x.val * 256 + y.val * 16) i := by
  intro m
  have hword : BitVec.ofNat 16 (0x8000 + n.val + x.val * 256 + y.val * 16) = digits 0x8 x y n :=
    congrArg (BitVec.ofNat 16) (by omega)
  obtain ⟨hop, hx, hy, hn⟩ := fields_digits (op := 0x8) (by decide) x y n
  simp only [hword, decode, hop, hgroup _ hx hy hn]

theorem readsAs_ldReg (x y : Reg) : ReadsAs (0x8000 + x.val * 256 + y.val * 16) (.ldReg x y) :=
  readsAs_of_decodeGroup8 (n := 0x0) fun w hx hy hn => by simp [decodeGroup8, hx, hy, hn]

theorem readsAs_orReg (x y : Reg) : ReadsAs (0x8001 + x.val * 256 + y.val * 16) (.orReg x y) :=
  readsAs_of_decodeGroup8 (n := 0x1) fun w hx hy hn => by simp [decodeGroup8, hx, hy, hn]

theorem readsAs_andReg (x y : Reg) : ReadsAs (0x8002 + x.val * 256 + y.val * 16) (.andReg x y) :=
  readsAs_of_decodeGroup8 (n := 0x2) fun w hx hy hn => by simp [decodeGroup8, hx, hy, hn]

theorem readsAs_xorReg (x y : Reg) : ReadsAs (0x8003 + x.val * 256 + y.val * 16) (.xorReg x y) :=
  readsAs_of_decodeGroup8 (n := 0x3) fun w hx hy hn => by simp [decodeGroup8, hx, hy, hn]

/-! ### The operators -/

@[simp] theorem aluAdd_fst_toNat (a b : Byte) : (aluAdd a b).1.toNat = (a.toNat + b.toNat) % 256 := BitVec.toNat_add a b

@[simp] theorem aluOr_getLsbD (a b : Byte) (k : Nat) : (aluOr a b).getLsbD k = (a.getLsbD k || b.getLsbD k) :=
  BitVec.getLsbD_or

@[simp] theorem aluAnd_getLsbD (a b : Byte) (k : Nat) : (aluAnd a b).getLsbD k = (a.getLsbD k && b.getLsbD k) :=
  BitVec.getLsbD_and

@[simp] theorem aluXor_getLsbD (a b : Byte) (k : Nat) : (aluXor a b).getLsbD k = (a.getLsbD k ^^ b.getLsbD k) :=
  BitVec.getLsbD_xor

/-! ### The write to Vx -/

theorem onlyWritesV_writeV (x : Reg) (b : Byte) (s : State) : OnlyWritesV x s (s.writeV x b) :=
  ⟨rfl, fun _ hq => readV_writeV_other b hq⟩

/-- Settles O19: each of the three is one write to Vx, of kk, of the sum, or of Vy. -/
theorem immediateAndMoveWriteOnlyVx : Obligations.ImmediateAndMoveWriteOnlyVx := by
  intro x y kk s
  refine ⟨⟨readsAs_ldImm x kk, _, rfl, ?ldImm, onlyWritesV_writeV x _ s⟩,
    ⟨readsAs_addImm x kk, _, rfl, ?addImm, onlyWritesV_writeV x _ s⟩,
    ⟨readsAs_ldReg x y, _, rfl, ?ldReg, onlyWritesV_writeV x _ s⟩⟩
  case ldImm => exact readV_writeV_same x kk
  case addImm => rw [readV_writeV_same, aluAdd_fst_toNat]
  case ldReg => exact readV_writeV_same x (s.readV y)

/-- Settles O20: each of the three is one write to Vx, of a byte whose bits are the operator on the operands' bits. -/
theorem logicalsWorkBitByBit : Obligations.LogicalsWorkBitByBit := by
  intro x y s
  refine ⟨⟨readsAs_orReg x y, _, rfl, onlyWritesV_writeV x _ s, fun k _ => ?or⟩,
    ⟨readsAs_andReg x y, _, rfl, onlyWritesV_writeV x _ s, fun k _ => ?and⟩,
    ⟨readsAs_xorReg x y, _, rfl, onlyWritesV_writeV x _ s, fun k _ => ?xor⟩⟩
  case or => rw [readV_writeV_same, aluOr_getLsbD]
  case and => rw [readV_writeV_same, aluAnd_getLsbD]
  case xor => rw [readV_writeV_same, aluXor_getLsbD]

end Sys2Proof.Machine
end

section
/-! PROOFS. LD I and ADD I (43_index_memory.md R150, R151): what their words read as, and the one write to I. -/

namespace Sys2Proof.Machine

/-! ### The words of LD I and ADD I -/

theorem readsAs_ldI (nnn : Addr12) : ReadsAs (0xA000 + nnn.toNat) (.ldI nnn) := by
  intro m
  change decode m (digitAddr 0xA nnn) = .ok (.ldI nnn)
  obtain ⟨hop, hnnn⟩ := fields_digitAddr (op := 0xA) (by decide) nnn
  simp only [decode, hop, hnnn]

/-- A word of group F reads as what the second level of the dispatch answers on its low byte (30_encoding.md R74, R81). -/
theorem readsAs_of_decodeGroupF {x : Reg} {kk : Byte} {i : Instr}
    (hgroup : ∀ w, xField w = x → kkField w = kk → decodeGroupF w = .ok i) :
    ReadsAs (0xF000 + kk.toNat + x.val * 256) i := by
  intro m
  have hword : BitVec.ofNat 16 (0xF000 + kk.toNat + x.val * 256) = digitRegByte 0xF x kk :=
    congrArg (BitVec.ofNat 16) (by omega)
  obtain ⟨hop, hx, hkk⟩ := fields_digitRegByte (op := 0xF) (by decide) x kk
  simp only [hword, decode, hop, hgroup _ hx hkk]

theorem readsAs_addI (x : Reg) : ReadsAs (0xF01E + x.val * 256) (.addI x) :=
  readsAs_of_decodeGroupF (kk := 0x1E) fun w hx hkk => by simp [decodeGroupF, hx, hkk]

/-! ### The sum in 16 bits -/

@[simp] theorem wideV_toNat (s : State) (x : Reg) : (s.wideV x).toNat = (s.readV x).toNat :=
  BitVec.toNat_setWidth_of_le (by decide)

/-- Settles O27: each of the two is one write to I, of the widened address, or of the 16-bit sum with Vx widened. -/
theorem ldIAndAddIWriteOnlyI : Obligations.LdIAndAddIWriteOnlyI := by
  intro nnn x s
  refine ⟨⟨readsAs_ldI nnn, s.setI (addrOperand nnn), rfl, ?ldI, rfl⟩,
    ⟨readsAs_addI x, s.setI (s.I + s.wideV x), rfl, ?addI, rfl⟩⟩
  case ldI => rw [State.setI_I, addrOperand_toNat]
  case addI => rw [State.setI_I, BitVec.toNat_add, wideV_toNat]

end Sys2Proof.Machine
end

section
/-! PROOFS. CLS (44_display.md R172): what its word reads as, and the one write to the display. -/

namespace Sys2Proof.Machine

/-- A word of group 0 with the low byte E0 is CLS when its digit x is allowed (30_encoding.md R75, R76). -/
theorem decode_digitRegByte_0_E0 (m : DecodeDontCare) (d : Nibble) :
    decode m (digitRegByte 0x0 d 0xE0#8) = checked m (digitRegByte 0x0 d 0xE0#8) (.cls d) := by
  obtain ⟨hop, hx, hkk⟩ := fields_digitRegByte (op := 0x0) (by decide) d 0xE0#8
  simp [decode, decodeGroup0, hop, hx, hkk]

theorem readsAs_cls : ReadsAs 0x00E0 (.cls 0) := fun m =>
  (decode_digitRegByte_0_E0 m 0).trans (checked_eq_ok_iff.2 ⟨by simp [Instr.wellFormed], rfl⟩)

/-- Settles O35: CLS is one write of the blank display, whatever its ignored digit. -/
theorem clsTurnsEveryPixelOff : Obligations.ClsTurnsEveryPixelOff := fun _ s =>
  ⟨readsAs_cls, s.setPix blankDisplay, rfl, pixelAt_blankDisplay, rfl⟩

end Sys2Proof.Machine
end

section
/-! PROOFS. The timer moves (45_keypad_timers.md R183, R186, R187): what their words read as, and the one register each
writes. -/

namespace Sys2Proof.Machine

theorem readsAs_ldVxDt (x : Reg) : ReadsAs (0xF007 + x.val * 256) (.ldVxDt x) :=
  readsAs_of_decodeGroupF (kk := 0x07) fun w hx hkk => by simp [decodeGroupF, hx, hkk]

theorem readsAs_ldDt (x : Reg) : ReadsAs (0xF015 + x.val * 256) (.ldDt x) :=
  readsAs_of_decodeGroupF (kk := 0x15) fun w hx hkk => by simp [decodeGroupF, hx, hkk]

theorem readsAs_ldSt (x : Reg) : ReadsAs (0xF018 + x.val * 256) (.ldSt x) :=
  readsAs_of_decodeGroupF (kk := 0x18) fun w hx hkk => by simp [decodeGroupF, hx, hkk]

/-- Settles O39: the three are one write to Vx, of DT, and one write to DT and to ST, of Vx. -/
theorem timerMovesWriteOneRegister : Obligations.TimerMovesWriteOneRegister := by
  intro x s
  refine ⟨⟨readsAs_ldVxDt x, s.writeV x s.DT, rfl, ?ldVxDt, onlyWritesV_writeV x s.DT s⟩,
    ⟨readsAs_ldDt x, s.setDT (s.readV x), rfl, ?ldDt, rfl⟩,
    ⟨readsAs_ldSt x, s.setST (s.readV x), rfl, ?ldSt, rfl⟩⟩
  case ldVxDt => exact readV_writeV_same x s.DT
  case ldDt => exact State.setDT_DT s (s.readV x)
  case ldSt => exact State.setST_ST s (s.readV x)

end Sys2Proof.Machine
end

section
/-! PROOFS. Decoding and encoding agree (30_encoding.md R74-R76): what an encoding decodes to, what a decoded word is
the encoding of, and the digits that lax decoding ignores. -/

namespace Sys2Proof

/-! ### The fields of an encoding, for simp -/

section
variable {op : Nat} (h : op < 16) (x y n : Fin 16) (kk : Byte) (nnn : Addr12)
include h

@[simp] theorem opField_digits : (opField (digits op x y n)).val = op := (fields_digits h x y n).1
@[simp] theorem xField_digits : xField (digits op x y n) = x := (fields_digits h x y n).2.1
@[simp] theorem yField_digits : yField (digits op x y n) = y := (fields_digits h x y n).2.2.1
@[simp] theorem nField_digits : nField (digits op x y n) = n := (fields_digits h x y n).2.2.2
@[simp] theorem opField_digitRegByte : (opField (digitRegByte op x kk)).val = op := (fields_digitRegByte h x kk).1
@[simp] theorem xField_digitRegByte : xField (digitRegByte op x kk) = x := (fields_digitRegByte h x kk).2.1
@[simp] theorem kkField_digitRegByte : kkField (digitRegByte op x kk) = kk := (fields_digitRegByte h x kk).2.2
@[simp] theorem opField_digitAddr : (opField (digitAddr op nnn)).val = op := (fields_digitAddr h nnn).1
@[simp] theorem nnnField_digitAddr : nnnField (digitAddr op nnn) = nnn := (fields_digitAddr h nnn).2

end

/-! ### What an encoding decodes to -/

theorem checked_eq_ok {m : DecodeDontCare} {w : Word} {i : Instr} (h : i.wellFormed m = true) :
    checked m w i = .ok i := if_pos h

/-- Of a well-formed instruction the digits that the pattern names lead both levels of the dispatch to its row, and the
others are its operands. -/
theorem decode_encode {m : DecodeDontCare} {i : Instr} (h : i.wellFormed m = true) : decode m (encode i) = .ok i := by
  cases i with
  | cls d | ret d => simpa [encode, decode, decodeGroup0] using checked_eq_ok h
  | seReg x y d | sneReg x y d => simpa [encode, decode] using checked_eq_ok h
  | jp nnn | call nnn | ldI nnn | jpV0 nnn => simp [encode, decode]
  | seImm x kk | sneImm x kk | ldImm x kk | addImm x kk | rnd x kk => simp [encode, decode]
  | drw x y n => simp [encode, decode]
  | ldReg x y | orReg x y | andReg x y | xorReg x y | addReg x y | sub x y | shr x y | subn x y | shl x y =>
    simp [encode, decode, decodeGroup8]
  | skp x | sknp x => simp [encode, decode, decodeGroupE]
  | ldVxDt x | ldVxK x | ldDt x | ldSt x | addI x | ldF x | ldB x | ldMemVx x | ldVxMem x =>
    simp [encode, decode, decodeGroupF]

/-- Settles O2: the decoder finds the row of an encoding and cuts the operands out of it. -/
theorem decodeOfEncodeIsTheInstruction : Obligations.DecodeOfEncodeIsTheInstruction := fun _ _ => decode_encode

/-- The number of an instruction's word reads as the instruction, if it is well-formed under either policy. -/
theorem readsAs_of_encode {w : Nat} {i : Instr} (hw : encode i = BitVec.ofNat 16 w) (hwf : ∀ m, i.wellFormed m = true) :
    Machine.ReadsAs w i := fun m => hw ▸ decode_encode (hwf m)

/-! ### What a decoded word is the encoding of -/

section
variable {w : Word} {op : Nat} (hop : (opField w).val = op)
include hop

theorem digits_fields : digits op (xField w) (yField w) (nField w) = w := by
  apply BitVec.eq_of_toNat_eq
  rw [digits_toNat (hop ▸ (opField w).isLt), toNat_eq_fields w, hop]

theorem digitRegByte_fields : digitRegByte op (xField w) (kkField w) = w := by
  apply BitVec.eq_of_toNat_eq
  rw [digitRegByte_toNat (hop ▸ (opField w).isLt), toNat_eq_fields w, hop, kkField_toNat]
  omega

theorem digitAddr_fields : digitAddr op (nnnField w) = w := by
  have := w.isLt
  have : w.toNat / 2 ^ 12 % 16 = op := hop
  apply BitVec.eq_of_toNat_eq
  rw [digitAddr_toNat (hop ▸ (opField w).isLt), nnnField, BitVec.toNat_ofNat]
  omega

/-- The word of a row that fixes the low digit. -/
theorem digits_of_nField {n : Nibble} (hn : (nField w).val = n.val) : digits op (xField w) (yField w) n = w :=
  Fin.ext hn ▸ digits_fields hop

/-- The word of a row that fixes the low byte. -/
theorem digitRegByte_of_kkField {kk : Byte} (hkk : (kkField w).toNat = kk.toNat) : digitRegByte op (xField w) kk = w :=
  BitVec.eq_of_toNat_eq hkk ▸ digitRegByte_fields hop

end

section
variable {m : DecodeDontCare} {w : Word} {i : Instr}

theorem encode_of_decodeGroup0 (hop : (opField w).val = 0x0) (h : decodeGroup0 m w = .ok i) :
    encode i = w ∧ i.wellFormed m = true := by
  unfold decodeGroup0 at h
  split at h
  case h_3 => cases h
  all_goals
    obtain ⟨hwf, rfl⟩ := checked_eq_ok_iff.1 h
    exact ⟨digitRegByte_of_kkField hop (by assumption), hwf⟩

theorem encode_of_decodeGroup8 (hop : (opField w).val = 0x8) (h : decodeGroup8 w = .ok i) :
    encode i = w ∧ i.wellFormed m = true := by
  unfold decodeGroup8 at h
  split at h
  case h_10 => cases h
  all_goals
    obtain rfl := Except.ok.inj h
    exact ⟨digits_of_nField hop (by assumption), rfl⟩

theorem encode_of_decodeGroupE (hop : (opField w).val = 0xE) (h : decodeGroupE w = .ok i) :
    encode i = w ∧ i.wellFormed m = true := by
  unfold decodeGroupE at h
  split at h
  case h_3 => cases h
  all_goals
    obtain rfl := Except.ok.inj h
    exact ⟨digitRegByte_of_kkField hop (by assumption), rfl⟩

theorem encode_of_decodeGroupF (hop : (opField w).val = 0xF) (h : decodeGroupF w = .ok i) :
    encode i = w ∧ i.wellFormed m = true := by
  unfold decodeGroupF at h
  split at h
  case h_10 => cases h
  all_goals
    obtain rfl := Except.ok.inj h
    exact ⟨digitRegByte_of_kkField hop (by assumption), rfl⟩

/-- What a word decodes to is made of the word's own fields, so its encoding puts the word together again. -/
theorem encode_of_decode (h : decode m w = .ok i) : encode i = w ∧ i.wellFormed m = true := by
  unfold decode at h
  split at h
  case h_1 hop => exact encode_of_decodeGroup0 hop h
  case h_9 hop => exact encode_of_decodeGroup8 hop h
  case h_15 hop => exact encode_of_decodeGroupE hop h
  case h_16 hop => exact encode_of_decodeGroupF hop h
  case h_17 => cases h
  case h_6 hop | h_10 hop =>
    obtain ⟨hwf, rfl⟩ := checked_eq_ok_iff.1 h
    exact ⟨digits_fields hop, hwf⟩
  case h_2 hop | h_3 hop | h_11 hop | h_12 hop =>
    obtain rfl := Except.ok.inj h
    exact ⟨digitAddr_fields hop, rfl⟩
  case h_4 hop | h_5 hop | h_7 hop | h_8 hop | h_13 hop =>
    obtain rfl := Except.ok.inj h
    exact ⟨digitRegByte_fields hop, rfl⟩
  case h_14 hop =>
    obtain rfl := Except.ok.inj h
    exact ⟨digits_fields hop, rfl⟩

end

/-- Settles O3: along the branches of the decoder. -/
theorem decodedWordIsItsEncoding : Obligations.DecodedWordIsItsEncoding := fun _ _ _ => encode_of_decode

/-! ### Lax decoding -/

/-- Under lax every instruction is well-formed (R76). -/
@[simp] theorem wellFormed_lax (i : Instr) : i.wellFormed .lax = true := by
  cases i <;> rfl

@[simp] theorem checked_lax (w : Word) (i : Instr) : checked .lax w i = .ok i := checked_eq_ok (wellFormed_lax i)

/-- The policy matters to group 0 with low byte E0 or EE and to groups 5 and 9 only. -/
theorem decode_policy_irrelevant {w : Word}
    (h0 : (opField w).val = 0x0 → (kkField w).toNat ≠ 0xE0 ∧ (kkField w).toNat ≠ 0xEE) (h5 : (opField w).val ≠ 0x5)
    (h9 : (opField w).val ≠ 0x9) (m m' : DecodeDontCare) : decode m w = decode m' w := by
  unfold decode
  split
  case h_1 hop => simp [decodeGroup0, h0 hop]
  case h_6 hop => exact absurd hop h5
  case h_10 hop => exact absurd hop h9
  all_goals rfl

/-- The same in the masks of the statements. -/
theorem decode_lax_eq_strict {w : Word} (hE0 : w &&& 0xF0FF ≠ 0x00E0) (hEE : w &&& 0xF0FF ≠ 0x00EE)
    (h5 : w &&& 0xF000 ≠ 0x5000) (h9 : w &&& 0xF000 ≠ 0x9000) : decode .lax w = decode .strict w := by
  refine decode_policy_irrelevant (fun hop => ⟨fun hkk => hE0 ?_, fun hkk => hEE ?_⟩) (fun hop => h5 ?_)
    (fun hop => h9 ?_) .lax .strict
  · exact (and_F0FF_eq_iff rfl).2 ⟨hop, hkk⟩
  · exact (and_F0FF_eq_iff rfl).2 ⟨hop, hkk⟩
  · exact (and_F000_eq_iff rfl).2 hop
  · exact (and_F000_eq_iff rfl).2 hop

/-- Settles O5: a mask of the statement fixes the digits that lead the dispatch to the row, whose instruction lax
decoding answers; on every other word the policy is not looked at. -/
theorem laxDecodeIgnoresTheUnnamedDigits : Obligations.LaxDecodeIgnoresTheUnnamedDigits := by
  intro w
  refine ⟨fun h => ⟨xField w, ?cls⟩, fun h => ⟨xField w, ?ret⟩, fun h => ⟨nField w, ?seReg⟩,
    fun h => ⟨nField w, ?sneReg⟩, decode_lax_eq_strict⟩
  case cls =>
    obtain ⟨hop, hkk⟩ := (and_F0FF_eq_iff rfl).1 h
    simp [decode, decodeGroup0, hop, hkk]
  case ret =>
    obtain ⟨hop, hkk⟩ := (and_F0FF_eq_iff rfl).1 h
    simp [decode, decodeGroup0, hop, hkk]
  case seReg => simp [decode, (and_F000_eq_iff rfl).1 h]
  case sneReg => simp [decode, (and_F000_eq_iff rfl).1 h]

/-- Settles O1: the twelve words, decoded. -/
theorem writtenWordsDecode : Obligations.WrittenWordsDecode := by
  unfold Obligations.WrittenWordsDecode
  decide

end Sys2Proof
end

section
/-! PROOFS. The step (30_encoding.md R80-R85): the outcomes of a fetch, the step that follows from each, and the word
that is placed for a fetch. -/

namespace Sys2Proof.Machine

variable {s : State} {w : Word} {i : Instr}

/-! ### The outcomes of a fetch -/

theorem misaligned_iff (c : Config) (a : Nat) : misaligned c a = true ↔ c.misalignedFetch = .fault ∧ a % 2 = 1 := by
  simp [misaligned]

theorem misaligned_eq_false_iff (c : Config) (a : Nat) :
    misaligned c a = false ↔ (c.misalignedFetch = .fault → a % 2 = 0) := by
  rw [← Bool.not_eq_true, misaligned_iff, not_and, Nat.mod_two_not_eq_one]

/-- The bytes at pc can be fetched when both exist and pc is aligned as MISALIGNED_FETCH asks. -/
theorem fetchable_of (hpc : s.pc.toNat + 1 < memSize) (halign : s.cfg.misalignedFetch = .fault → s.pc.toNat % 2 = 0) :
    s.fetchable = true := by
  simp [State.fetchable, hpc, (misaligned_eq_false_iff _ _).2 halign]

theorem fetch_misaligned (h : misaligned s.cfg s.pc.toNat = true) : fetch s = .error (bareRaise .misalignedFetch) := by
  simp only [fetch, h, if_true]

/-- An aligned fetch that has not both bytes names the first that does not exist. -/
theorem fetch_outOfBounds (halign : misaligned s.cfg s.pc.toNat = false) (h : memSize ≤ s.pc.toNat + 1) :
    fetch s = .error (outOfBoundsAt (max s.pc.toNat memSize)) := by
  simp only [fetch, halign, Bool.false_eq_true, if_false]
  by_cases hpc : memSize ≤ s.pc.toNat
  · rw [memRead_error hpc, Nat.max_eq_left hpc]
  · rw [memRead_ok (Nat.lt_of_not_le hpc), memRead_error h, show max s.pc.toNat memSize = s.pc.toNat + 1 by omega]

/-! ### The step that follows -/

/-- The load window, which every step closes, is not looked at by the fetch (log 6). -/
@[simp] theorem fetch_setLoadPhase (p : LoadPhase) : fetch (s.setLoadPhase p) = fetch s := rfl

@[simp] theorem advance_cfg : (advance s).cfg = s.cfg := rfl

theorem step_of_fetch_error {r : Raise} (hrun : s.run = .running) (hfetch : fetch s = .error r) :
    step s = .next (fetchFault r (s.setLoadPhase .started)) := by
  simp only [step, hrun, stepRunning, fetch_setLoadPhase, hfetch]

theorem step_of_decode_error {e : DecodeError} (hrun : s.run = .running) (hfetch : fetch s = .ok w)
    (hdec : decode s.cfg.decodeDontCare w = .error e) :
    step s = .next (unknownOpcode s.pc w (advance (s.setLoadPhase .started))) := by
  simp only [step, hrun, stepRunning, fetch_setLoadPhase, hfetch, dispatchWord, advance_cfg,
    State.setLoadPhase_cfg, hdec, State.setLoadPhase_pc]

theorem step_of_decode (hrun : s.run = .running) (hfetch : fetch s = .ok w)
    (hdec : decode s.cfg.decodeDontCare w = .ok i) : step s = exec i (advance (s.setLoadPhase .started)) := by
  simp only [step, hrun, stepRunning, fetch_setLoadPhase, hfetch, dispatchWord, advance_cfg,
    State.setLoadPhase_cfg, hdec]

/-- Settles O6: the two bytes are what is fetched. -/
theorem stepRunsTheDecodedInstruction : Obligations.StepRunsTheDecodedInstruction := fun _ _ hrun hpc halign hdec =>
  step_of_decode hrun (fetch_ok (fetchable_of hpc halign)) hdec

/-- A word that no row selects, and whose ignored digits are not what keeps it from a row, decodes to nothing. -/
theorem decode_unmatched {m : DecodeDontCare} (hrows : ∀ r : Mnemonic, w &&& r.matchAndMask.2 ≠ r.matchAndMask.1)
    (hlax : m = .lax → w &&& 0xF0FF ≠ 0x00E0 ∧ w &&& 0xF0FF ≠ 0x00EE ∧ w &&& 0xF000 ≠ 0x5000 ∧ w &&& 0xF000 ≠ 0x9000) :
    ∃ e, decode m w = .error e := by
  have hm : decode m w = decode .strict w := by
    cases m with
    | strict => rfl
    | lax =>
      obtain ⟨hE0, hEE, h5, h9⟩ := hlax rfl
      exact decode_lax_eq_strict hE0 hEE h5 h9
  rw [hm]
  cases hdec : decode .strict w with
  | error e => exact ⟨e, rfl⟩
  | ok i => exact absurd ((selects_iff _ _).1 (selects_of_decode_strict hdec)) (hrows _)

/-- Settles O7: the fetched word decodes to nothing. -/
theorem unmatchedWordRaisesUnknownOpcode : Obligations.UnmatchedWordRaisesUnknownOpcode := by
  rintro s w hrun hpc halign rfl hrows hlax
  obtain ⟨e, hdec⟩ := decode_unmatched hrows hlax
  exact step_of_decode_error hrun (fetch_ok (fetchable_of hpc halign)) hdec

/-- Settles O8: in each of the three cases the fetch raises. -/
theorem fetchFaultLeavesPc : Obligations.FetchFaultLeavesPc := by
  intro s hrun stopped misalignedHere
  have aligned : ¬ misalignedHere → misaligned s.cfg s.pc.toNat = false := fun h =>
    Bool.eq_false_iff.2 fun hm => h ((misaligned_iff _ _).1 hm)
  refine ⟨fun hmis => ?misaligned, fun hmis hpc => ?firstByte, fun hmis hpc => ?secondByte⟩
  case misaligned => exact step_of_fetch_error hrun (fetch_misaligned ((misaligned_iff _ _).2 hmis))
  case firstByte =>
    have hfetch := fetch_outOfBounds (aligned hmis) (Nat.le_succ_of_le hpc)
    rw [Nat.max_eq_left hpc] at hfetch
    exact step_of_fetch_error hrun hfetch
  case secondByte =>
    have hfetch := fetch_outOfBounds (aligned hmis) (Nat.le_of_eq (congrArg Nat.succ hpc).symm)
    rw [hpc] at hfetch
    exact step_of_fetch_error hrun hfetch

/-- Settles O11: an instruction always has an effect, and of the three run states only Faulted has no transition. -/
theorem onlyAFaultedCoreStops : Obligations.OnlyAFaultedCoreStops := by
  refine ⟨fun i s => ?exec, fun s => ⟨fun hrun => ?step, fun rec hrun => ?faulted⟩⟩
  case exec =>
    obtain ⟨t, ht, -⟩ := exec_next_effect i s
    exact ⟨t, ht⟩
  case faulted => simp only [step, hrun]
  case step =>
    cases hr : s.run with
    | faulted rec => exact absurd hr (hrun rec)
    | awaitingKey x prev => exact ⟨_, by simp only [step, hr]; rfl⟩
    | running =>
      cases hfetch : fetch s with
      | error r => exact ⟨_, step_of_fetch_error hr hfetch⟩
      | ok w =>
        cases hdec : decode s.cfg.decodeDontCare w with
        | error e => exact ⟨_, step_of_decode_error hr hfetch hdec⟩
        | ok i =>
          obtain ⟨t, ht, -⟩ := exec_next_effect i (advance (s.setLoadPhase .started))
          exact ⟨t, (step_of_decode hr hfetch hdec).trans ht⟩

/-! ### A normal end -/

/-- Settles O53: a word of 0x1000 plus an address is the jump to it. -/
theorem normalEndStaysPut : Obligations.NormalEndStaysPut := by
  rintro s ⟨hrun, w, hfetch, hw⟩
  obtain ⟨hpc, -, -⟩ := fetch_eq_ok hfetch
  have hnnn : (BitVec.ofNat 12 s.pc.toNat).toNat = s.pc.toNat :=
    (BitVec.toNat_ofNat _ _).trans (Nat.mod_eq_of_lt (Nat.lt_of_succ_lt hpc))
  have hdec : decode s.cfg.decodeDontCare w = .ok (.jp (BitVec.ofNat 12 s.pc.toNat)) := by
    rw [← readsAs_jp, hnnn, ← hw, BitVec.ofNat_toNat, BitVec.setWidth_eq]
  have htarget : addrOperand (BitVec.ofNat 12 s.pc.toNat) = s.pc :=
    BitVec.eq_of_toNat_eq ((addrOperand_toNat _).trans hnnn)
  rw [step_of_decode hrun hfetch hdec]
  show Host.Outcome.next ((advance (s.setLoadPhase .started)).setPc (addrOperand _)) = _
  rw [htarget]
  rfl

/-! ### The word that is placed for a fetch -/

/-- Placing a word writes its two bytes at pc of a state that runs and can be fetched from, and that is the old one but
for the run state and, if nothing could be fetched there, pc (log 8). -/
theorem placeWord_eq (s : State) (w : Word) :
    ∃ u : State, u.fetchable = true ∧ u = { s with pc := u.pc, run := .running } ∧ (s.fetchable = true → u.pc = s.pc) ∧
      s.placeWord w = (u.putByte u.pc.toNat (hiByte w)).putByte (u.pc.toNat + 1) (loByte w) := by
  by_cases h : s.fetchable = true
  · exact ⟨s.setRun .running, h, rfl, fun _ => rfl, by simp only [State.placeWord, h, if_true]⟩
  · exact ⟨(s.setPc 0x200).setRun .running, by simp [State.fetchable, misaligned, memSize], rfl, fun h' => absurd h' h,
      by simp only [State.placeWord, h, Bool.false_eq_true, if_false]⟩

/-- A word whose bytes stand at pc, the high byte first, is fetched (D1). -/
theorem fetch_eq_word (h : s.fetchable = true) (hhi : s.byteAt s.pc.toNat = hiByte w)
    (hlo : s.byteAt (s.pc.toNat + 1) = loByte w) : fetch s = .ok w := by
  rw [fetch_ok h, hhi, hlo, wordOfBytes_bytesOfWord]

/-- Settles O12: the two bytes are written where the fetch reads them. -/
theorem placedWordIsFetched : Obligations.PlacedWordIsFetched := by
  intro s w hwf t
  obtain ⟨u, hfetchable, hu, hstay, ht⟩ := placeWord_eq s w
  have ht : t = (u.putByte u.pc.toNat (hiByte w)).putByte (u.pc.toNat + 1) (loByte w) := by
    rw [← ht]
    show s.placeWord (BitVec.ofNat 16 (w.toNat % 2 ^ 16)) = _
    rw [Nat.mod_eq_of_lt w.isLt, BitVec.ofNat_toNat, BitVec.setWidth_eq]
  have hwfu : Memory.wf u.cfg u.mem := by
    rw [hu]
    exact hwf
  have hpc : u.pc.toNat < memSize := by
    obtain ⟨hlt, -, -⟩ := fetch_eq_ok (fetch_ok hfetchable)
    exact Nat.lt_of_succ_lt hlt
  clear_value t
  subst ht
  refine ⟨fetch_eq_word hfetchable ?hi ?lo, ?frame, hstay, fun a hhi hlo => ?others⟩
  case hi =>
    exact (byteAt_putByte_other _ (Nat.ne_of_lt (Nat.lt_succ_self _))).trans (byteAt_putByte_same hwfu _ _)
  case lo => exact byteAt_putByte_same (putByte_wf hwfu hpc _) _ _
  case frame =>
    rw [putByte_eq, putByte_eq, hu]
  case others =>
    have hsame : u.byteAt a = s.byteAt a := by
      rw [hu]
      rfl
    exact (byteAt_putByte_other _ hlo).trans ((byteAt_putByte_other _ hhi).trans hsame)

end Sys2Proof.Machine
end

section
/-! PROOFS. What the shared operations leave, and what an instruction may change and raise (10_state.md,
60_exceptions.md R200), read off its effect. -/

namespace Sys2Proof.Machine

/-! ### Writes to registers, one after another -/

theorem writeV_writeV_same (s : State) (r : Reg) (b b' : Byte) : (s.writeV r b).writeV r b' = s.writeV r b' := by
  simp [State.writeV]

theorem writeV_comm (s : State) {r q : Reg} (h : r ≠ q) (b b' : Byte) :
    (s.writeV r b).writeV q b' = (s.writeV q b').writeV r b := by
  simp only [State.writeV]
  rw [Vector.set_comm _ _ (Fin.val_ne_of_ne h)]

theorem setPix_writeV (s : State) (r : Reg) (b : Byte) (d : Display) :
    (s.writeV r b).setPix d = (s.setPix d).writeV r b := rfl

/-- A register other than VF reads as before VF was written. -/
theorem readV_writeV_VF {s : State} {x : Reg} (hx : x ≠ VF) (b : Byte) :
    (s.writeV VF b).readV x = s.readV x := readV_writeV_other b hx

/-! ### Multi-byte accesses as one update -/

/-- A store of several bytes replaces memory only. -/
theorem storeBytes_eq_setMem (s : State) (a : Nat) (bs : List Byte) :
    (s.storeBytes a bs).1 = s.setMem (s.storeBytes a bs).1.mem := (storeBytes_cases bs s a).1

/-- A load of several registers replaces the register file only. -/
theorem loadRegs_eq_setV (s : State) (a : Nat) (rs : List Reg) :
    (s.loadRegs a rs).1 = { s with V := (s.loadRegs a rs).1.V } := (loadRegs_cases rs s a).1

/-- A drawing reads I and memory only. -/
theorem drawRows_congr {s t : State} (hI : t.I = s.I) (hread : ∀ a, t.memRead a = s.memRead a) (px py k r : Nat)
    (acc : Bool × Display) : drawRows t px py k r acc = drawRows s px py k r acc := by
  induction k generalizing r acc with
  | zero => rfl
  | succ k ih => simp only [drawRows, ih, hI, hread]

variable {i : Instr} {s t : State}

/-! ### The registers -/

/-- An update that leaves the register file leaves each register. -/
theorem readV_of_V_eq (h : t.V = s.V) (q : Reg) : t.readV q = s.readV q := by
  simp only [State.readV, h]

theorem skipIf_V (c : Bool) : (s.skipIf c).V = s.V := by
  cases c <;> rfl

theorem Effect.readV_unlisted (h : Effect i s t) {q : Reg} (hq : mayWriteV i q = false) : t.readV q = s.readV q := by
  cases h with
  | regs t ht hregs => exact hregs q hq
  | draw d b x y n hi =>
    subst hi
    exact readV_writeV_other b (by simpa [mayWriteV] using hq)
  | loadFault a x r hi =>
    subst hi
    obtain ⟨-, hothers, -⟩ := loadRegs_cases (regsUpTo x) s a
    exact hothers q (by rw [mem_regsUpTo]; simpa [mayWriteV] using hq)
  | store a bs | storeFault a bs => exact readV_of_V_eq (by rw [storeBytes_eq_setMem]; rfl) q
  | skip => exact readV_of_V_eq (skipIf_V _) q
  | jump | call | ret | index | clear | wait | delay | sound | drawFault | stackFault | operandFault => rfl

/-- Settles O44: each effect writes the registers of its instruction's row. -/
theorem registersAreWrittenAsListed : Obligations.RegistersAreWrittenAsListed := fun _ _ _ _ h =>
  (exec_effect h).readV_unlisted

/-! ### The rest of the state -/

/-- Settles O45: each effect updates the fields of its instruction's row. -/
theorem stateIsWrittenOnlyByItsInstructions : Obligations.StateIsWrittenOnlyByItsInstructions := by
  intro i s t h
  cases exec_effect h with
  | regs t ht _ hdraws => rw [ht]; simpa using hdraws
  | skip hm =>
    simp only [List.mem_cons, List.not_mem_nil, or_false] at hm
    cases skipTaken s i with
    | false => simp [State.skipIf]
    | true => simp [State.skipIf, State.skip, hm]
  | jump a hm =>
    simp only [List.mem_cons, List.not_mem_nil, or_false] at hm
    rcases hm with hm | hm <;> simp [hm]
  | call nnn hi => simp [hi, Instr.mnemonic]
  | ret d hi => simp [hi, Instr.mnemonic]
  | index a hm => simpa using fun _ => hm
  | draw d b x y n hi => simp [hi, Instr.mnemonic]
  | clear d hi => simp [hi, Instr.mnemonic]
  | wait x hi => simp [hi, Instr.mnemonic]
  | delay x hi => simp [hi, Instr.mnemonic]
  | sound x hi => simp [hi, Instr.mnemonic]
  | store a bs hm =>
    rw [storeBytes_eq_setMem]
    simpa using fun _ => hm
  | storeFault a bs r hm =>
    rw [storeBytes_eq_setMem]
    simpa [faultedBy] using fun _ => hm
  | loadFault a x r hi => rw [loadRegs_eq_setV]; simp [faultedBy]
  | drawFault d x y n a hi => simp [faultedBy, hi, Instr.mnemonic]
  | stackFault | operandFault => simp [faultedBy]

theorem exec_keeps_key_cfg_loadPhase (h : exec i s = .next t) :
    t.key = s.key ∧ t.cfg = s.cfg ∧ t.loadPhase = s.loadPhase := by
  obtain ⟨hkey, hcfg, hphase, -⟩ := stateIsWrittenOnlyByItsInstructions i s t h
  exact ⟨hkey, hcfg, hphase⟩

theorem exec_keeps_stack (h : exec i s = .next t) (hi : i.mnemonic ∉ [Mnemonic.CALL, .RET]) :
    t.SP = s.SP ∧ t.stack = s.stack := by
  obtain ⟨-, -, -, -, -, -, -, -, hSP, hstack, -⟩ := stateIsWrittenOnlyByItsInstructions i s t h
  have hcall : i.mnemonic ≠ .CALL := fun h => hi (by simp [h])
  exact ⟨not_imp_comm.1 hSP hi, not_imp_comm.1 hstack hcall⟩

/-! ### The raises -/

/-- OutOfBounds has the fields of its kind, whatever instruction or fetch raises it. -/
theorem legalRecord_outOfBoundsAt {a : Nat} (h : memSize ≤ a) (pc : Word) (w : Option Word) :
    LegalRecord ⟨.outOfBounds, pc, w, some a, none⟩ := ⟨⟨a, rfl, h⟩, rfl⟩

theorem legalRecord_protectedAt {a : Nat} (h : a < protectedLimit) (pc w : Word) :
    LegalRecord ⟨.protectedRegionViolation, pc, some w, some a, none⟩ := ⟨⟨a, rfl, h⟩, rfl, nofun⟩

/-- An effect that ends Faulted is a raise of a kind of the instruction's row; the record has the fields of the kind and
names the instruction, and pc stays past the word. -/
theorem Effect.faulted {rec : FaultRecord} (h : Effect i s t) (hrun : s.run = .running) (hf : t.run = .faulted rec) :
    rec.kind ∈ mayRaise i.mnemonic ∧ LegalRecord rec ∧ rec.pc = s.pc - 2 ∧ rec.opcode = some (encode i) ∧
      t.pc = s.pc := by
  have hno : s.run ≠ .faulted rec := by simp [hrun]
  cases h with
  | storeFault a bs r hm hr =>
    obtain rfl := RunState.faulted.inj hf
    rw [storeBytes_eq_setMem]
    simp only [List.mem_cons, List.not_mem_nil, or_false] at hm
    obtain ⟨-, -, -, -, hraise⟩ := storeBytes_cases bs s a
    rcases hraise r hr with ⟨x, hx, rfl⟩ | ⟨x, hx, rfl⟩
    · refine ⟨?_, legalRecord_protectedAt hx _ _, rfl, rfl, rfl⟩
      rcases hm with hm | hm <;> simp [hm, mayRaise, protectedAt]
    · refine ⟨?_, legalRecord_outOfBoundsAt hx _ _, rfl, rfl, rfl⟩
      rcases hm with hm | hm <;> simp [hm, mayRaise, outOfBoundsAt]
  | loadFault a x r hi hr =>
    subst hi
    obtain rfl := RunState.faulted.inj hf
    rw [loadRegs_eq_setV]
    obtain ⟨-, -, hraise⟩ := loadRegs_cases (regsUpTo x) s a
    obtain ⟨b, hb, rfl⟩ := hraise r hr
    exact ⟨List.mem_singleton_self _, legalRecord_outOfBoundsAt hb _ _, rfl, rfl, rfl⟩
  | drawFault d x y n a hi ha =>
    subst hi
    obtain rfl := RunState.faulted.inj hf
    exact ⟨List.mem_singleton_self _, legalRecord_outOfBoundsAt ha _ _, rfl, rfl, rfl⟩
  | stackFault k hm =>
    obtain rfl := RunState.faulted.inj hf
    rcases hm with ⟨hm, rfl⟩ | ⟨hm, rfl⟩ <;> exact ⟨by simp [hm, mayRaise], ⟨rfl, rfl, nofun⟩, rfl, rfl, rfl⟩
  | operandFault v hv hm =>
    obtain rfl := RunState.faulted.inj hf
    simp only [List.mem_cons, List.not_mem_nil, or_false] at hm
    exact ⟨by rcases hm with hm | hm | hm <;> simp [hm, mayRaise], ⟨rfl, ⟨v, rfl, hv⟩, nofun⟩, rfl, rfl, rfl⟩
  | regs t ht => exact absurd (by rw [ht] at hf; exact hf) hno
  | skip => exact absurd (by cases hc : skipTaken s i <;> rw [hc] at hf <;> exact hf) hno
  | store a bs => exact absurd (by rw [storeBytes_eq_setMem] at hf; exact hf) hno
  | wait => cases hf
  | jump | call | ret | index | draw | clear | delay | sound => exact absurd hf hno

/-- Settles O46: an instruction that answers a Faulted state is one of the raising effects. -/
theorem instructionsRaiseOnlyTheirKinds : Obligations.InstructionsRaiseOnlyTheirKinds := by
  intro i s t rec hrun hexec hf
  obtain ⟨hkind, -, hpc, hopcode, hstay⟩ := (exec_effect hexec).faulted hrun hf
  exact ⟨hkind, hpc, hopcode, hstay⟩

end Sys2Proof.Machine
end

section
/-! PROOFS. Calls, returns and the jump past V0 (41_control_flow.md R101, R103, R108), and the stack they use
(10_state.md R29). -/

namespace Sys2Proof.Machine

variable {s : State}

/-! ### CALL and RET, by the depth of the stack -/

theorem exec_call_of_lt (nnn : Addr12) (h : s.SP.val < 16) :
    exec (.call nnn) s =
      .next ((s.setStack ⟨s.SP.val + 1, by omega⟩ (s.stack.set s.SP.val s.pc)).setPc (addrOperand nnn)) := by
  simp only [exec, execCall, push_ok _ h, orRaise]

theorem exec_call_of_full (nnn : Addr12) (h : ¬ s.SP.val < 16) :
    exec (.call nnn) s = .next (faultedBy (.call nnn) .stackOverflow none none s) := by
  simp only [exec, execCall, push_error _ h]
  rfl

theorem exec_ret_of_ne (d : Nibble) (h : s.SP.val ≠ 0) :
    exec (.ret d) s = .next ((s.setStack ⟨s.SP.val - 1, by omega⟩ s.stack).setPc s.stack[s.SP.val - 1]) := by
  simp only [exec, execRet, pop_ok h, orRaise]

theorem exec_ret_of_empty (d : Nibble) (h : s.SP.val = 0) :
    exec (.ret d) s = .next (faultedBy (.ret d) .stackUnderflow none none s) := by
  simp only [exec, execRet, pop_error h]
  rfl

theorem readsAs_ret : ReadsAs 0x00EE (.ret 0) :=
  readsAs_of_encode rfl fun m => by simp [Instr.wellFormed]

theorem readsAs_call (nnn : Addr12) : ReadsAs (0x2000 + nnn.toNat) (.call nnn) := readsAs_of_encode rfl fun _ => rfl

theorem readsAs_jpV0 (nnn : Addr12) : ReadsAs (0xB000 + nnn.toNat) (.jpV0 nnn) := readsAs_of_encode rfl fun _ => rfl

/-- Settles O14: RET pops, or the stack is empty. -/
theorem retPopsPc : Obligations.RetPopsPc := fun d _ =>
  ⟨readsAs_ret, exec_ret_of_empty d, fun h =>
    ⟨_, exec_ret_of_ne d h, Nat.sub_add_cancel (Nat.pos_of_ne_zero h), rfl, rfl⟩⟩

/-- Settles O15: CALL pushes, or the stack is full. -/
theorem callPushesTheAdvancedPc : Obligations.CallPushesTheAdvancedPc := by
  intro nnn s
  refine ⟨readsAs_call nnn, fun h => exec_call_of_full nnn (by omega), fun h =>
    ⟨_, exec_call_of_lt nnn h, rfl, ?pushed, fun j hj hne => ?kept, addrOperand_toNat nnn, rfl⟩⟩
  case pushed => exact Vector.getElem_set_self _
  case kept => exact Vector.getElem_set_ne h hj (Ne.symm hne)

/-- Settles O18: the return pops the entry that the call pushed. -/
theorem callThenRetComesBack : Obligations.CallThenRetComesBack := by
  intro nnn d s h
  refine ⟨_, _, exec_call_of_lt nnn h, exec_ret_of_ne d (Nat.succ_ne_zero _), ?same, fun j hj hne => ?kept⟩
  case same => simp [State.setPc, State.setStack]
  case kept => exact Vector.getElem_set_ne h hj (Ne.symm hne)

/-- Settles O17: a 12-bit address and a byte sum to less than 65536. -/
theorem jpV0AddsV0Exactly : Obligations.JpV0AddsV0Exactly := by
  intro nnn s
  refine ⟨readsAs_jpV0 nnn, s.setPc (addrOperand nnn + s.wideV 0), rfl, ?_, rfl⟩
  have := nnn.isLt
  have := (s.readV 0).isLt
  rw [State.setPc_pc, BitVec.toNat_add, addrOperand_toNat, wideV_toNat]
  omega

end Sys2Proof.Machine
end

section
/-! PROOFS. DRW (44_display.md R173): the sprite in closed form, one draw and a second one over it. -/

namespace Sys2Proof.Machine

variable {s : State}

theorem readsAs_drw (x y : Reg) (n : Nibble) :
    ReadsAs (0xD000 + x.val * 256 + y.val * 16 + n.val) (.drw x y n) := readsAs_of_encode rfl fun _ => rfl

/-- Rows that can be read flip the covered pixels of a display and report whether one of them was lit. -/
theorem drawRows_covers {px py k : Nat} (hk : k ≤ 32) (hm : k = 0 ∨ s.I.toNat + k ≤ memSize) (d : Display) :
    Flipped (Covers s px py k) (false, d) (drawRows s px py k 0 (false, d)).1 := by
  have hcovers : Covers s px py k = RowsCover s px py k 0 := by
    funext X Y
    exact propext (rowsCover_iff s px py k X Y).symm
  rw [hcovers]
  exact drawRows_flipped hk (by omega) (false, d)

section
variable {S : Fin 64 → Fin 32 → Prop} {d : Display} {out : Bool × Display} (h : Flipped S (false, d) out)
include h

/-- A draw with no collision before it collides exactly when a lit pixel is covered. -/
theorem Flipped.hit_iff : out.1 = true ↔ ∃ X Y, S X Y ∧ pixelAt d X Y = true := by
  simpa using h.2

theorem Flipped.flag_eq_one (hit : ∃ X Y, S X Y ∧ pixelAt d X Y = true) : flagByte out.1 = 1 := by
  rw [h.hit_iff.2 hit]
  rfl

theorem Flipped.flag_eq_zero (hit : ¬ ∃ X Y, S X Y ∧ pixelAt d X Y = true) : flagByte out.1 = 0 := by
  rw [Bool.eq_false_iff.2 fun ht => hit (h.hit_iff.1 ht)]
  rfl

/-- The same flips once more give the display back. -/
theorem Flipped.again {out' : Bool × Display} (h' : Flipped S (false, out.2) out') : out'.2 = d := by
  refine display_ext fun X Y => ?_
  by_cases hS : S X Y
  · rw [(h'.1 X Y).1 hS, (h.1 X Y).1 hS, Bool.not_not]
  · rw [(h'.1 X Y).2 hS, (h.1 X Y).2 hS]

end

/-- A sprite that can be read is drawn, and VF written last. -/
theorem exec_drw_of_fits {x y : Reg} {n : Nibble} (h : n.val = 0 ∨ s.I.toNat + n.val ≤ memSize) :
    exec (.drw x y n) s =
      let out := (drawRows s (s.readV x).toNat (s.readV y).toNat n.val 0 (false, s.pix)).1
      .next ((s.setPix out.2).writeV VF (flagByte out.1)) := by
  have hnone : (drawRows s (s.readV x).toNat (s.readV y).toNat n.val 0 (false, s.pix)).2 = none :=
    drawRows_ok (by omega)
  simp only [exec, execDrw, hnone]

/-- A sprite that runs past the end of memory draws the rows that can be read, and raises at the first that cannot. -/
theorem exec_drw_past_end {x y : Reg} {n : Nibble} (hn : n.val ≠ 0) (h : memSize < s.I.toNat + n.val) :
    exec (.drw x y n) s =
      .next (faultedBy (.drw x y n) .outOfBounds (some (max s.I.toNat memSize)) none
        (s.setPix (drawRows s (s.readV x).toNat (s.readV y).toNat (memSize - s.I.toNat) 0 (false, s.pix)).1.2)) := by
  have hrows := drawRows_past_end (s := s) (px0 := (s.readV x).toNat) (py0 := (s.readV y).toNat) (r := 0) hn (by omega)
    (false, s.pix)
  simp only [exec, execDrw, hrows]
  rfl

/-- Settles O36: the sprite fits, or it runs past the end of memory. -/
theorem drwFlipsTheCoveredPixels : Obligations.DrwFlipsTheCoveredPixels := by
  intro x y n s px0 py0 a
  have hn := n.isLt
  refine ⟨readsAs_drw x y n, fun hfits => ?fits, fun hn0 hpast => ?pastEnd⟩
  case fits =>
    have hm : n.val = 0 ∨ s.I.toNat + n.val ≤ memSize := hfits.imp_left (congrArg Fin.val)
    have hflip : Flipped (Covers s px0 py0 n.val) _ _ := drawRows_covers (by omega) hm s.pix
    refine ⟨_, exec_drw_of_fits hm, hflip.1, fun hit => ?lit, fun hit => ?unlit,
      fun q hq => readV_writeV_other _ hq, rfl⟩
    case lit => exact (readV_writeV_same _ _).trans (hflip.flag_eq_one hit)
    case unlit => exact (readV_writeV_same _ _).trans (hflip.flag_eq_zero hit)
  case pastEnd =>
    have hpast : memSize < s.I.toNat + n.val := hpast
    have hflip : Flipped (Covers s px0 py0 (memSize - s.I.toNat)) _ _ := drawRows_covers (by omega) (by omega) s.pix
    exact ⟨_, exec_drw_past_end (fun h => hn0 (Fin.ext h)) hpast, hflip.1, rfl⟩

/-- A draw over any display, after VF was written, from the registers other than VF. -/
theorem exec_drw_over {x y : Reg} {n : Nibble} (hx : x ≠ VF) (hy : y ≠ VF) (hfits : s.I.toNat + n.val ≤ memSize)
    (d : Display) (b : Byte) :
    exec (.drw x y n) ((s.setPix d).writeV VF b) =
      let out := (drawRows s (s.readV x).toNat (s.readV y).toNat n.val 0 (false, d)).1
      .next ((s.setPix out.2).writeV VF (flagByte out.1)) := by
  have hrows := drawRows_congr (t := (s.setPix d).writeV VF b) (s := s) rfl fun _ => rfl
  rw [exec_drw_of_fits (s := (s.setPix d).writeV VF b) (.inr hfits), readV_writeV_VF hx, readV_writeV_VF hy]
  simp only [hrows, setPix_writeV, writeV_writeV_same]
  rfl

/-- Settles O37: the second draw flips the same pixels, which the first left lit if they were not. -/
theorem drwTwiceGivesTheDisplayBack : Obligations.DrwTwiceGivesTheDisplayBack := by
  intro x y n s hx hy hfits covers
  have hn := n.isLt
  have hflip : Flipped covers (false, s.pix) _ := drawRows_covers (by omega) (.inr hfits) s.pix
  have hagain (d : Display) : Flipped covers (false, d) (drawRows s _ _ n.val 0 (false, d)).1 :=
    drawRows_covers (by omega) (.inr hfits) d
  refine ⟨_, _, exec_drw_of_fits (.inr hfits), exec_drw_over hx hy hfits _ _, hflip.again (hagain _), fun hunlit =>
    ⟨?first, fun hbit => ?second, fun hbit => ?blank⟩⟩
  case first =>
    refine (readV_writeV_same _ _).trans (hflip.flag_eq_zero ?_)
    rintro ⟨X, Y, hXY, hlit⟩
    exact absurd hlit (by simp [hunlit X Y hXY])
  case second =>
    obtain ⟨X, Y, hXY⟩ := hbit
    refine (readV_writeV_same _ _).trans ((hagain _).flag_eq_one ⟨X, Y, hXY, ?_⟩)
    rw [(hflip.1 X Y).1 hXY, hunlit X Y hXY, Bool.not_false]
  case blank =>
    refine (readV_writeV_same _ _).trans ((hagain _).flag_eq_zero ?_)
    rintro ⟨X, Y, hXY, -⟩
    exact hbit ⟨X, Y, hXY⟩

end Sys2Proof.Machine
end

section
/-! PROOFS. The flag-setting ALU instructions and RND (42_alu.md R120-R123, R130-R135): results and flags as numbers,
the write back, and what VF held before. -/

namespace Sys2Proof.Machine

/-! ### The words of the ALU instructions -/

theorem readsAs_addReg (x y : Reg) : ReadsAs (0x8004 + x.val * 256 + y.val * 16) (.addReg x y) :=
  readsAs_of_encode (congrArg (BitVec.ofNat 16) (by omega)) fun _ => rfl

theorem readsAs_sub (x y : Reg) : ReadsAs (0x8005 + x.val * 256 + y.val * 16) (.sub x y) :=
  readsAs_of_encode (congrArg (BitVec.ofNat 16) (by omega)) fun _ => rfl

theorem readsAs_shr (x y : Reg) : ReadsAs (0x8006 + x.val * 256 + y.val * 16) (.shr x y) :=
  readsAs_of_encode (congrArg (BitVec.ofNat 16) (by omega)) fun _ => rfl

theorem readsAs_subn (x y : Reg) : ReadsAs (0x8007 + x.val * 256 + y.val * 16) (.subn x y) :=
  readsAs_of_encode (congrArg (BitVec.ofNat 16) (by omega)) fun _ => rfl

theorem readsAs_shl (x y : Reg) : ReadsAs (0x800E + x.val * 256 + y.val * 16) (.shl x y) :=
  readsAs_of_encode (congrArg (BitVec.ofNat 16) (by omega)) fun _ => rfl

theorem readsAs_rnd (x : Reg) (kk : Byte) : ReadsAs (0xC000 + x.val * 256 + kk.toNat) (.rnd x kk) :=
  readsAs_of_encode rfl fun _ => rfl

/-! ### Results and flags as numbers -/

theorem aluSub_fst_toNat (a b : Byte) : (aluSub a b).1.toNat = (a.toNat + 256 - b.toNat) % 256 := by
  show (a - b).toNat = _
  bv_omega

theorem aluShr_fst_toNat (a : Byte) : (aluShr a).1.toNat = a.toNat / 2 := by
  show (a >>> 1).toNat = _
  rw [BitVec.toNat_ushiftRight, Nat.shiftRight_eq_div_pow]

theorem aluShr_flag (a : Byte) : (if (aluShr a).2 then 1 else 0) = a.toNat % 2 := by
  have hbit : (aluShr a).2 = decide (a.toNat % 2 = 1) := Nat.testBit_zero a.toNat
  simp only [hbit, decide_eq_true_eq]
  split <;> omega

theorem aluShl_fst_toNat (a : Byte) : (aluShl a).1.toNat = a.toNat * 2 % 256 := by
  show (a <<< 1).toNat = _
  rw [BitVec.toNat_shiftLeft, Nat.shiftLeft_eq]

theorem aluShl_flag (a : Byte) : (if (aluShl a).2 then 1 else 0) = a.toNat / 128 := by
  have hbit : (aluShl a).2 = decide (a.toNat / 2 ^ 7 % 2 = 1) := Nat.testBit_eq_decide_div_mod_eq
  have := a.isLt
  simp only [hbit, decide_eq_true_eq]
  split <;> omega

theorem aluBnot_toNat (b : Byte) : (aluBnot b).toNat = 255 - b.toNat := by
  show (b ^^^ BitVec.allOnes 8).toNat = _
  rw [BitVec.xor_allOnes, BitVec.toNat_not]

/-- Settles O26: the sum is 256 more than the difference unless it borrows. -/
theorem strictFlagFromCarryAndBnot : Obligations.StrictFlagFromCarryAndBnot := by
  intro a b sum
  have ha := a.isLt
  have hb := b.isLt
  have hsum : sum = a.toNat + (255 - b.toNat) + 1 := by rw [← aluBnot_toNat]
  have hfst := aluSub_fst_toNat a b
  refine ⟨BitVec.eq_of_toNat_eq ?difference, ?flag, aluBnot_toNat b⟩
  case difference =>
    rw [hfst, BitVec.toNat_ofNat]
    omega
  case flag =>
    have hzero : (aluSub a b).1 = 0 ↔ a.toNat = b.toNat := by
      rw [← BitVec.toNat_inj, hfst]
      show _ = 0 ↔ _
      omega
    show decide (a.toNat > b.toNat) = _
    rw [Bool.eq_iff_iff]
    simp only [decide_eq_true_eq, Bool.and_eq_true, bne_iff_ne, ne_eq, hzero]
    omega

/-! ### The write back -/

variable {s : State} {x : Reg}

@[simp] theorem flagByte_toNat (f : Bool) : (flagByte f).toNat = if f then 1 else 0 := by
  cases f <;> rfl

/-- The write back of a result and a flag is the one that R123 lays down. -/
theorem writesBack_writeBack (s : State) (x : Reg) (rf : Byte × Bool) :
    WritesBack x rf.1.toNat (if rf.2 then 1 else 0) s (s.writeBack x rf) := by
  obtain ⟨hframe, hothers, hxVF, hdraws⟩ := writeBack_cases (s := s) x rf
  refine ⟨hothers, fun hx => ?distinct, ?resultWins, ?flagWins, ?any⟩
  case distinct =>
    obtain ⟨hresult, hflag⟩ := hxVF hx
    rw [if_neg fun h => hx h.1] at hdraws
    rw [hdraws] at hframe
    exact ⟨congrArg _ hresult, by rw [hflag, flagByte_toNat], hframe⟩
  case resultWins =>
    rintro rfl hpolicy
    simp only [State.writeBack, hpolicy]
    exact ⟨congrArg _ (readV_writeV_same _ _), rfl⟩
  case flagWins =>
    rintro rfl hpolicy
    simp only [State.writeBack, hpolicy]
    exact ⟨by rw [readV_writeV_same, flagByte_toNat], rfl⟩
  case any =>
    rintro rfl hpolicy
    simp only [State.writeBack, hpolicy, if_true]
    exact ⟨readV_writeV_same _ _, rfl⟩

/-- An instruction that ends in a write back, with its result and its flag as numbers. -/
theorem writesBack_of_exec {i : Instr} {rf : Byte × Bool} {r f : Nat} (hexec : exec i s = .next (s.writeBack x rf))
    (hr : rf.1.toNat = r) (hf : (if rf.2 then 1 else 0) = f) : ∃ t, exec i s = .next t ∧ WritesBack x r f s t := by
  subst hr hf
  exact ⟨_, hexec, writesBack_writeBack s x rf⟩

/-- Settles O21: the write back of the sum and the carry. -/
theorem addSetsCarry : Obligations.AddSetsCarry := fun x y s =>
  ⟨readsAs_addReg x y, writesBack_of_exec rfl (aluAdd_fst_toNat _ _) (by simp [aluAdd])⟩

/-- Settles O22: the write back of the difference and the strict comparison, in the two orders of the operands. -/
theorem subtractionsSetTheStrictFlag : Obligations.SubtractionsSetTheStrictFlag := fun x y s =>
  ⟨⟨readsAs_sub x y, writesBack_of_exec rfl (aluSub_fst_toNat _ _) (by simp [aluSub])⟩,
    readsAs_subn x y, writesBack_of_exec rfl (aluSub_fst_toNat _ _) (by simp [aluSub])⟩

/-- Settles O23: the write back of the half or the double of the source and of its lowest or highest bit. -/
theorem shiftsSetTheBitShiftedOut : Obligations.ShiftsSetTheBitShiftedOut := by
  intro x y s a hvx hvy
  have ha : a = (s.shiftOperand x y).toNat := by
    unfold State.shiftOperand
    split
    · exact hvx (by assumption)
    · exact hvy (by assumption)
  subst ha
  exact ⟨⟨readsAs_shr x y, writesBack_of_exec rfl (aluShr_fst_toNat _) (aluShr_flag _)⟩,
    readsAs_shl x y, writesBack_of_exec rfl (aluShl_fst_toNat _) (aluShl_flag _)⟩

/-- Settles O24: a bit that is clear in the mask is clear in the masked draw. -/
theorem rndMasksOneFreeDraw : Obligations.RndMasksOneFreeDraw := by
  intro x kk s
  refine ⟨readsAs_rnd x kk, _, rfl, readV_writeV_same _ _, fun k hk => ?clear, fun q hq => readV_writeV_other _ hq, rfl⟩
  case clear => exact (congrArg (BitVec.getLsbD · k) (readV_writeV_same _ _)).trans (by simp [hk])

/-! ### What VF held before -/

/-- A write back to a register other than VF overwrites VF. -/
theorem writeBack_writeV_VF (hx : x ≠ VF) (b : Byte) (rf : Byte × Bool) :
    (s.writeV VF b).writeBack x rf = s.writeBack x rf := by
  unfold State.writeBack
  rw [State.writeV_cfg]
  cases s.cfg.aluVfDest with
  | resultWins => simp only [writeV_writeV_same]
  | flagWins => simp only [writeV_comm s (Ne.symm hx), writeV_writeV_same]
  | any => simp only [hx, if_false, writeV_writeV_same]

/-- Settles O25: the operands read the same, and the old VF is overwritten. -/
theorem oldVfDoesNotSurviveFlagSetting : Obligations.OldVfDoesNotSurviveFlagSetting := by
  intro x y n b s hx hy
  have hreadx := readV_writeV_VF (s := s) hx b
  have hready := readV_writeV_VF (s := s) hy b
  have hshift : (s.writeV VF b).shiftOperand x y = s.shiftOperand x y := by
    simp only [State.shiftOperand, State.writeV_cfg, hreadx, hready]
  have hdraw := drawRows_congr (t := s.writeV VF b) (s := s) rfl fun _ => rfl
  refine ⟨?alu, fun hfits => ?drw⟩
  case alu =>
    simp [exec, execAddReg, execSub, execShr, execSubn, execShl, hreadx, hready, hshift, writeBack_writeV_VF hx]
  case drw =>
    rw [exec_drw_of_fits (.inr hfits), exec_drw_of_fits (s := s.writeV VF b) (.inr hfits), hreadx, hready]
    simp only [hdraw, State.writeV_pix, setPix_writeV, writeV_writeV_same]

end Sys2Proof.Machine
end

section
/-! PROOFS. LD F and the loads and stores of several bytes (43_index_memory.md R152-R156): what their words read as,
where they raise, and the bytes and registers they write. -/

namespace Sys2Proof.Machine

variable {s : State}

/-! ### Operands that must be a digit -/

theorem orRaise_of_digit {i : Instr} {v : Byte} {rest : Fin 16 → Result} (h : v.toNat ≤ 15) :
    orRaise i s (digitOperand v) rest = rest ⟨v.toNat, by omega⟩ := by
  rw [digitOperand_ok h]
  rfl

theorem orRaise_of_no_digit {i : Instr} {v : Byte} {rest : Fin 16 → Result} (h : 15 < v.toNat) :
    orRaise i s (digitOperand v) rest = .next (faultedBy i .operandOutOfRange none (some v) s) := by
  rw [digitOperand_error h]
  rfl

theorem readsAs_ldF (x : Reg) : ReadsAs (0xF029 + x.val * 256) (.ldF x) :=
  readsAs_of_decodeGroupF (kk := 0x29) fun w hx hkk => by simp [decodeGroupF, hx, hkk]

/-- Every glyph address is a number below 0x200, so it is exact. -/
theorem glyphAddress_toNat (c : Config) (d : Fin 16) : (glyphAddress c d).toNat = c.fontBase.val + 5 * d.val := by
  have := c.fontBase.isLt
  have := d.isLt
  rw [glyphAddress, BitVec.toNat_ofNat]
  exact Nat.mod_eq_of_lt (by simp only [protectedLimit, fontSize] at *; omega)

/-- Settles O28: the operand is a digit, or the check raises. -/
theorem ldFPointsAtTheGlyph : Obligations.LdFPointsAtTheGlyph := fun x s =>
  ⟨readsAs_ldF x, fun h => ⟨_, orRaise_of_digit h, glyphAddress_toNat s.cfg _, rfl⟩, orRaise_of_no_digit⟩

/-! ### Instructions that store bytes -/

section
variable {i : Instr} {a : Nat} {bs : List Byte} (hexec : exec i s = finish i (s.storeBytes a bs))
include hexec

/-- Below the protected limit nothing is stored. -/
theorem exec_store_protected (hbs : bs ≠ []) (ha : a < 0x200) :
    exec i s = .next (faultedBy i .protectedRegionViolation (some a) none s) := by
  rw [hexec, storeBytes_protected ha hbs]
  rfl

/-- Where all bytes can be written, all are, and nothing else is. -/
theorem exec_store_writable (hwf : Memory.wf s.cfg s.mem) (hlo : 0x200 ≤ a) (hhi : a + bs.length ≤ 4096) :
    ∃ t, exec i s = .next t ∧ OnlyStores a bs.length s t ∧ ∀ k (h : k < bs.length), t.byteAt (a + k) = bs[k] := by
  obtain ⟨hframe, -, -, hothers, -⟩ := storeBytes_cases bs s a
  obtain ⟨hraise, hstored⟩ := storeBytes_spec (bs := bs) (s := s) hlo
  rw [if_pos (.inr hhi)] at hraise
  refine ⟨_, hexec.trans (finish_none i hraise), ⟨hframe, fun b hb => hothers b ?_⟩, fun k hk => hstored hwf k hk ?_⟩
  · exact hb.imp_right .inl
  · exact Nat.lt_of_lt_of_le (Nat.add_lt_add_left hk a) hhi

/-- Past the end of memory the bytes before it are stored, and nothing else is. -/
theorem exec_store_past_end (hwf : Memory.wf s.cfg s.mem) (hlo : 0x200 ≤ a) (hbs : bs ≠ [])
    (hhi : 4096 < a + bs.length) :
    ∃ t, exec i s = .next (faultedBy i .outOfBounds (some (max a 4096)) none t) ∧ OnlyStores a (4096 - a) s t ∧
      ∀ k (h : k < bs.length), a + k < 4096 → t.byteAt (a + k) = bs[k] := by
  obtain ⟨hframe, -, -, hothers, -⟩ := storeBytes_cases bs s a
  obtain ⟨hraise, hstored⟩ := storeBytes_spec (bs := bs) (s := s) hlo
  have hlen : bs.length ≠ 0 := fun h => hbs (List.eq_nil_of_length_eq_zero h)
  rw [if_neg (by simp only [memSize]; omega)] at hraise
  refine ⟨_, hexec.trans (finish_some i hraise), ⟨hframe, fun b hb => hothers b ?_⟩, hstored hwf⟩
  simp only [memSize]
  omega

end

/-! ### LD B -/

theorem readsAs_ldB (x : Reg) : ReadsAs (0xF033 + x.val * 256) (.ldB x) :=
  readsAs_of_decodeGroupF (kk := 0x33) fun w hx hkk => by simp [decodeGroupF, hx, hkk]

theorem bcdDigits_length (v : Byte) : (bcdDigits v).length = 3 := rfl

theorem bcdDigits_getElem_toNat (v : Byte) (k : Nat) (h : k < (bcdDigits v).length) :
    ((bcdDigits v)[k]).toNat = v.toNat / 10 ^ (2 - k) % 10 := by
  have := v.isLt
  match k, h with
  | 0, _ | 1, _ | 2, _ =>
    simp only [bcdDigits, List.getElem_cons_zero, List.getElem_cons_succ, BitVec.toNat_ofNat]
    omega

theorem bcdDigits_ne_nil (v : Byte) : bcdDigits v ≠ [] := List.cons_ne_nil _ _

/-- Settles O29: LD B stores the three digits. -/
theorem ldBStoresDecimalDigits : Obligations.LdBStoresDecimalDigits := by
  intro x s hwf a digit
  have hlen := bcdDigits_length (s.readV x)
  have hdigit := bcdDigits_getElem_toNat (s.readV x)
  refine ⟨readsAs_ldB x, fun hlo hhi => ?writable, exec_store_protected rfl (bcdDigits_ne_nil _), fun hhi => ?pastEnd⟩
  case writable =>
    obtain ⟨t, ht, honly, hbytes⟩ := exec_store_writable (i := .ldB x) rfl hwf hlo (by omega)
    exact ⟨t, ht, honly, fun k hk => (congrArg BitVec.toNat (hbytes k hk)).trans (hdigit k hk)⟩
  case pastEnd =>
    obtain ⟨t, ht, honly, hbytes⟩ :=
      exec_store_past_end (i := .ldB x) (a := a) rfl hwf (by omega) (bcdDigits_ne_nil _) (by omega)
    refine ⟨t, ht, honly, fun k hk => ?_⟩
    have hk3 : k < (bcdDigits (s.readV x)).length := by omega
    exact (congrArg BitVec.toNat (hbytes k hk3 (by omega))).trans (hdigit k hk3)

/-! ### LD [I], Vx -/

theorem readsAs_ldMemVx (x : Reg) : ReadsAs (0xF055 + x.val * 256) (.ldMemVx x) :=
  readsAs_of_decodeGroupF (kk := 0x55) fun w hx hkk => by simp [decodeGroupF, hx, hkk]

theorem bytesUpTo_length (s : State) (x : Reg) : (s.bytesUpTo x).length = x.val + 1 := by
  rw [State.bytesUpTo, List.length_map, regsUpTo_length]

theorem bytesUpTo_getElem (s : State) (x r : Reg) (h : r.val < (s.bytesUpTo x).length) :
    (s.bytesUpTo x)[r.val] = s.readV r := by
  simp only [State.bytesUpTo, List.getElem_map, regsUpTo_get]

theorem bytesUpTo_ne_nil (s : State) (x : Reg) : s.bytesUpTo x ≠ [] :=
  List.ne_nil_of_length_pos (by rw [bytesUpTo_length]; exact Nat.succ_pos _)

/-- Settles O30: LD [I], Vx stores the registers up to x. -/
theorem ldMemVxStoresRegisters : Obligations.LdMemVxStoresRegisters := by
  intro x s hwf a
  have hlen := bytesUpTo_length s x
  have hx := x.isLt
  refine ⟨readsAs_ldMemVx x, fun hlo hhi => ?writable, exec_store_protected rfl (bytesUpTo_ne_nil s x),
    fun hhi => ?pastEnd⟩
  case writable =>
    obtain ⟨t, ht, honly, hbytes⟩ := exec_store_writable (i := .ldMemVx x) rfl hwf hlo (by omega)
    refine ⟨t, ht, hlen ▸ honly, fun r hr => ?_⟩
    have hr : r.val ≤ x.val := hr
    rw [hbytes r.val (by omega), bytesUpTo_getElem]
  case pastEnd =>
    obtain ⟨t, ht, honly, hbytes⟩ :=
      exec_store_past_end (i := .ldMemVx x) (a := a) rfl hwf (by omega) (bytesUpTo_ne_nil s x) (by omega)
    refine ⟨t, ht, honly, fun r hr => ?_⟩
    rw [hbytes r.val (by omega) hr, bytesUpTo_getElem]

/-! ### LD Vx, [I] -/

theorem readsAs_ldVxMem (x : Reg) : ReadsAs (0xF065 + x.val * 256) (.ldVxMem x) :=
  readsAs_of_decodeGroupF (kk := 0x65) fun w hx hkk => by simp [decodeGroupF, hx, hkk]

/-- A load of V0..Vx fills the registers up to x whose byte exists. -/
theorem readV_loadRegs_regsUpTo (s : State) (a : Nat) (x r : Reg) :
    (s.loadRegs a (regsUpTo x)).1.readV r =
      if r ≤ x ∧ a + r.val < memSize then s.byteAt (a + r.val) else s.readV r := by
  by_cases hr : r ≤ x
  · have hk : r.val < (regsUpTo x).length := by
      rw [regsUpTo_length]
      exact Nat.lt_succ_of_le hr
    have hspec := (loadRegs_spec (s := s) (a := a) (regsUpTo_nodup x)).2 r.val hk
    rw [regsUpTo_get] at hspec
    simp only [hspec, hr, true_and]
  · rw [if_neg fun h => hr h.1]
    obtain ⟨-, hothers, -⟩ := loadRegs_cases (regsUpTo x) s a
    exact hothers r fun h => hr ((mem_regsUpTo x r).1 h)

theorem loadRegs_regsUpTo_raise (s : State) (a : Nat) (x : Reg) :
    (s.loadRegs a (regsUpTo x)).2 = if a + x.val < memSize then none else some (outOfBoundsAt (max a memSize)) := by
  rw [(loadRegs_spec (regsUpTo_nodup x)).1, regsUpTo_length]
  exact if_congr (by omega) rfl rfl

/-- Settles O31: where the last byte exists all do, and else those below 4096 are of registers up to x. -/
theorem ldVxMemLoadsRegisters : Obligations.LdVxMemLoadsRegisters := by
  intro x s a
  have hraise := loadRegs_regsUpTo_raise s a x
  refine ⟨readsAs_ldVxMem x, fun h => ?fits, fun h => ?pastEnd⟩
  case fits =>
    rw [if_pos h] at hraise
    refine ⟨_, finish_none _ hraise, loadRegs_eq_setV s a _, fun r => ?_⟩
    rw [readV_loadRegs_regsUpTo]
    exact if_congr ⟨fun hr => hr.1, fun hr => ⟨hr, Nat.lt_of_le_of_lt (Nat.add_le_add_left hr a) h⟩⟩ rfl rfl
  case pastEnd =>
    rw [if_neg (Nat.not_lt.2 h)] at hraise
    refine ⟨_, finish_some _ hraise, loadRegs_eq_setV s a _, fun r => ?_⟩
    rw [readV_loadRegs_regsUpTo]
    exact if_congr ⟨fun hr => hr.2, fun hr => ⟨(show r.val ≤ x.val by omega), hr⟩⟩ rfl rfl

/-! ### What is stored is loaded and fetched -/

/-- Settles O33: the load writes to each register what it holds. -/
theorem storeThenLoadRestoresRegisters : Obligations.StoreThenLoadRestoresRegisters := by
  intro x s hwf hlo hhi
  obtain ⟨-, hstore, -⟩ := ldMemVxStoresRegisters x s hwf
  obtain ⟨t, ht, ⟨hmem, -⟩, hbytes⟩ := hstore hlo hhi
  have hI : t.effAddr 0 = s.effAddr 0 := by rw [hmem]; rfl
  have hV : t.V = s.V := by rw [hmem]
  obtain ⟨-, hload, -⟩ := ldVxMemLoadsRegisters x t
  obtain ⟨u, hu, huV, hregs⟩ := hload (by rw [hI]; exact hhi)
  have hut : u = t := by
    rw [huV, regs_ext (s := u) (t := t) fun r => ?_]
    rw [hregs r, hI]
    split
    · rw [hbytes r (by assumption), readV_of_V_eq hV]
    · rfl
  exact ⟨t, ht, hut ▸ hu, hV⟩

/-- Settles O34: the stored bytes of V0 and V1 stand where the fetch reads. -/
theorem storedWordIsFetched : Obligations.StoredWordIsFetched := by
  intro x s hwf hx hlo hhi halign
  have hx : 1 ≤ x.val := hx
  obtain ⟨-, hstore, -⟩ := ldMemVxStoresRegisters x s hwf
  obtain ⟨t, ht, ⟨hmem, -⟩, hbytes⟩ := hstore hlo hhi
  have hI : t.I = s.I := by rw [hmem]
  have hcfg : t.cfg = s.cfg := by rw [hmem]
  have hfetchable : ({ t with pc := t.I } : State).fetchable = true := by
    refine fetchable_of ?_ ?_
    · show t.I.toNat + 1 < 4096
      rw [hI]
      omega
    · show t.cfg.misalignedFetch = .fault → t.I.toNat % 2 = 0
      rwa [hI, hcfg]
  refine ⟨t, ht, (fetch_ok hfetchable).trans ?_⟩
  show Except.ok (wordOfBytes (t.byteAt t.I.toNat) (t.byteAt (t.I.toNat + 1))) = _
  rw [hI, ← hbytes 0 (Fin.zero_le x), ← hbytes 1 hx]
  rfl

end Sys2Proof.Machine
end

section
/-! PROOFS. The keypad and the timers (45_keypad_timers.md R180-R185, 60_exceptions.md R209, R213): the key skips,
the wait, and the operations of the other agents. -/

namespace Sys2Proof.Machine

variable {s : State} {x : Reg}

/-! ### The key skips -/

theorem readsAs_skp (x : Reg) : ReadsAs (0xE09E + x.val * 256) (.skp x) :=
  readsAs_of_encode (congrArg (BitVec.ofNat 16) (show 0xE000 + x.val * 256 + 0x9E = _ by omega)) fun _ => rfl

theorem readsAs_sknp (x : Reg) : ReadsAs (0xE0A1 + x.val * 256) (.sknp x) :=
  readsAs_of_encode (congrArg (BitVec.ofNat 16) (show 0xE000 + x.val * 256 + 0xA1 = _ by omega)) fun _ => rfl

theorem exec_skp_of_key {k : Fin 16} (h : (s.readV x).toNat = k.val) :
    exec (.skp x) s = .next (s.skipIf s.key[k.val]) := by
  have hdigit : (s.readV x).toNat ≤ 15 := by omega
  refine (orRaise_of_digit hdigit).trans ?_
  simp only [State.pressed, h]

theorem exec_sknp_of_key {k : Fin 16} (h : (s.readV x).toNat = k.val) :
    exec (.sknp x) s = .next (s.skipIf (!s.key[k.val])) := by
  have hdigit : (s.readV x).toNat ≤ 15 := by omega
  refine (orRaise_of_digit hdigit).trans ?_
  simp only [State.pressed, h]

/-- Settles O38: with a key code the two are skips on the key's level, and without one the check raises. -/
theorem keySkipsReadTheLevel : Obligations.KeySkipsReadTheLevel := by
  intro x s
  refine ⟨readsAs_skp x, readsAs_sknp x, fun k hk => ?key, fun h => ⟨orRaise_of_no_digit h, orRaise_of_no_digit h⟩⟩
  obtain ⟨t, ht, htpc, htskip, htstay⟩ := skips_of_exec_eq_skipIf (exec_skp_of_key hk) Iff.rfl
  obtain ⟨u, hu, hupc, huskip, hustay⟩ :=
    skips_of_exec_eq_skipIf (exec_sknp_of_key hk) (iff_of_eq (Bool.not_eq_true' _))
  exact ⟨t, u, ht, hu, htpc, hupc, fun hdown => ⟨htskip hdown, hustay (by simp [hdown])⟩,
    fun hup => ⟨htstay (by simp [hup]), huskip hup⟩⟩

/-! ### The wait for a key -/

theorem readsAs_ldVxK (x : Reg) : ReadsAs (0xF00A + x.val * 256) (.ldVxK x) :=
  readsAs_of_decodeGroupF (kk := 0x0A) fun w hx hkk => by simp [decodeGroupF, hx, hkk]

/-- Settles O40: the snapshot is the keys as they are. -/
theorem ldVxKStartsTheWait : Obligations.LdVxKStartsTheWait := fun x s =>
  ⟨readsAs_ldVxK x, _, rfl, ⟨s.key, rfl, fun _ => rfl⟩, rfl⟩

/-- Without a fresh key a poll takes a new snapshot. -/
theorem pollKey_of_no_fresh {prev : Keys} (h : ∀ k, ¬ Fresh s.key prev k) :
    pollKey x prev s = s.setRun (.awaitingKey x s.key) := by
  have hnil : freshKeys s.key prev = [] :=
    List.eq_nil_iff_forall_not_mem.2 fun k hk => h k ((mem_freshKeys _ _ k).1 hk)
  simp only [pollKey, hnil]

/-- With a fresh key a poll stores a fresh one and returns to Running; under `lowest` it is the first, with no draw. -/
theorem pollKey_of_fresh {prev : Keys} (h : ∃ k, Fresh s.key prev k) :
    ∃ k draws, Fresh s.key prev k ∧
      pollKey x prev s = { (s.writeV x (BitVec.ofNat 8 k.val)).setRun .running with draws := draws } ∧
      (s.cfg.keySelect = .lowest → draws = s.draws ∧ ∀ k', Fresh s.key prev k' → k ≤ k') := by
  obtain ⟨k₀, hk₀⟩ := h
  have hmem := mem_freshKeys s.key prev
  have hrising := freshKeys_rising s.key prev
  unfold pollKey
  cases hf : freshKeys s.key prev with
  | nil => exact absurd ((hmem k₀).2 hk₀) (by simp [hf])
  | cons k ks =>
    rw [hf] at hmem hrising
    cases hsel : s.cfg.keySelect with
    | lowest =>
      refine ⟨k, s.draws, (hmem k).1 List.mem_cons_self, rfl, fun _ => ⟨rfl, fun k' hk' => ?_⟩⟩
      rcases List.mem_cons.1 ((hmem k').2 hk') with rfl | hk'
      · exact Nat.le_refl _
      · exact Nat.le_of_lt ((List.pairwise_cons.1 hrising).1 k' hk')
    | any =>
      have hlt : Config.anyKey s.draws % (ks.length + 1) < (k :: ks).length := Nat.mod_lt _ (Nat.succ_pos _)
      refine ⟨_, s.draws + 1, (hmem _).1 ?_, rfl, nofun⟩
      rw [List.getD_eq_getElem _ _ hlt]
      exact List.getElem_mem hlt

/-- Settles O41: the wait step is a poll. -/
theorem waitStepTakesAFreshKey : Obligations.WaitStepTakesAFreshKey := by
  intro s x prev hwait
  have hstep : step s = .next (pollKey x prev (s.setLoadPhase .started)) := by
    simp only [step, hwait]
  refine ⟨_, hstep, fun hnone => ?polls, fun hfresh => ?stores⟩
  case polls => exact pollKey_of_no_fresh hnone
  case stores =>
    obtain ⟨k, draws, hk, heq, hlowest⟩ := pollKey_of_fresh (s := s.setLoadPhase .started) (x := x) hfresh
    rw [heq]
    refine ⟨rfl, fun q hq => readV_writeV_other _ hq, k, hk, ?_, hlowest⟩
    refine (congrArg BitVec.toNat (readV_writeV_same x _)).trans ?_
    rw [BitVec.toNat_ofNat]
    omega

/-! ### The other agents -/

theorem tickDown_toNat (b : Byte) : (tickDown b).toNat = b.toNat - 1 := by
  unfold tickDown
  split
  · bv_omega
  · omega

/-- Settles O42: by induction on the number of ticks. -/
theorem ticksSaturateAtZero : Obligations.TicksSaturateAtZero := by
  intro n s
  refine ⟨_, rfl, ?_⟩
  induction n generalizing s with
  | zero => exact ⟨rfl, rfl, rfl⟩
  | succ n ih =>
    obtain ⟨hDT, hST, hframe⟩ := ih (tickTimers s)
    have hDT' : (tickTimers s).DT.toNat = s.DT.toNat - 1 := tickDown_toNat s.DT
    have hST' : (tickTimers s).ST.toNat = s.ST.toNat - 1 := tickDown_toNat s.ST
    simp only [List.replicate_succ, performAll, perform]
    exact ⟨by omega, by omega, hframe⟩

/-- Settles O43: one element of the key vector is set. -/
theorem keyEventWritesOneFlag : Obligations.KeyEventWritesOneFlag := fun k b s =>
  ⟨setPressed k b s, rfl, Vector.getElem_set_self _,
    fun q hq => Vector.getElem_set_ne k.isLt q.isLt (Fin.val_ne_of_ne (Ne.symm hq)), rfl⟩

end Sys2Proof.Machine
end

section
/-! PROOFS. The invariant of the machine: that reset meets it, that each effect of an instruction and each operation
keeps it, and what it says of the reserved region (20_memory.md R53, R54). -/

namespace Sys2Proof.Machine

variable {i : Instr} {s t : State}

/-! ### An effect keeps the parts of the invariant -/

/-- An instruction keeps the form of memory and lists no new address below the protected limit. -/
theorem Effect.keeps_memory (h : Effect i s t) :
    (Memory.wf s.cfg s.mem → Memory.wf s.cfg t.mem) ∧ ∀ p ∈ t.mem, p ∈ s.mem ∨ protectedLimit ≤ p.1 := by
  have unchanged : ∀ {m : Memory}, m = s.mem →
      (Memory.wf s.cfg s.mem → Memory.wf s.cfg m) ∧ ∀ p ∈ m, p ∈ s.mem ∨ protectedLimit ≤ p.1 := by
    rintro _ rfl
    exact ⟨id, fun _ => .inl⟩
  cases h with
  | store a bs | storeFault a bs =>
    obtain ⟨-, hwf, hnew, -⟩ := storeBytes_cases bs s a
    exact ⟨hwf, hnew⟩
  | regs t ht => exact unchanged (by rw [ht])
  | skip => exact unchanged (by cases skipTaken s i <;> rfl)
  | loadFault => exact unchanged (by rw [loadRegs_eq_setV]; rfl)
  | jump | call | ret | index | draw | clear | wait | delay | sound | drawFault | stackFault | operandFault =>
    exact unchanged rfl

/-- While an instruction runs pc is at most 0x1000, and a skip, a jump or a return sets it to at most 0x10FE
(10_state.md R28). -/
theorem Effect.pcBound (h : Effect i s t) (hpc : s.pc.toNat ≤ 0x1000)
    (hstack : ∀ j (h : j < 16), (s.stack[j]).toNat ≤ 0x1000) : t.pc.toNat ≤ 0x10FE := by
  have unchanged : ∀ {a : Word}, a = s.pc → a.toNat ≤ 0x10FE := by
    rintro _ rfl
    omega
  cases h with
  | skip =>
    cases skipTaken s i with
    | false => exact unchanged rfl
    | true =>
      show (s.pc + 2).toNat ≤ 0x10FE
      bv_omega
  | jump a hm ha => exact ha
  | call nnn =>
    have := nnn.isLt
    show (addrOperand nnn).toNat ≤ 0x10FE
    rw [addrOperand_toNat]
    omega
  | ret d hi hSP => exact Nat.le_trans (hstack (s.SP.val - 1) (by omega)) (by decide)
  | regs t ht => exact unchanged (by rw [ht])
  | store | storeFault => exact unchanged (by rw [storeBytes_eq_setMem]; rfl)
  | loadFault => exact unchanged (by rw [loadRegs_eq_setV]; rfl)
  | index | draw | clear | wait | delay | sound | drawFault | stackFault | operandFault => exact unchanged rfl

/-- The entry that CALL pushes is pc. -/
theorem Effect.stackBound (h : Effect i s t) (hpc : s.pc.toNat ≤ 0x1000)
    (hstack : ∀ j (h : j < 16), (s.stack[j]).toNat ≤ 0x1000) (j : Nat) (hj : j < 16) : (t.stack[j]).toNat ≤ 0x1000 := by
  have unchanged : ∀ {e : Vector Word 16}, e = s.stack → (e[j]).toNat ≤ 0x1000 := by
    rintro _ rfl
    exact hstack j hj
  cases h with
  | call nnn hi hSP =>
    simp only [State.setPc_stack, State.setStack_stack, Vector.getElem_set]
    split
    · exact hpc
    · exact hstack j hj
  | regs t ht => exact unchanged (by rw [ht])
  | skip => exact unchanged (by cases skipTaken s i <;> rfl)
  | store | storeFault => exact unchanged (by rw [storeBytes_eq_setMem]; rfl)
  | loadFault => exact unchanged (by rw [loadRegs_eq_setV]; rfl)
  | jump | ret | index | draw | clear | wait | delay | sound | drawFault | stackFault | operandFault =>
    exact unchanged rfl

/-! ### The steps -/

/-- An instruction keeps the invariant in the state that a step runs it in. -/
theorem inv_of_exec (hs : s.Inv) (hrun : s.run = .running) (hpc : s.pc.toNat ≤ 0x1000) (hphase : s.loadPhase = .started)
    (h : exec i s = .next t) : t.Inv := by
  obtain ⟨-, hcfg, hphase'⟩ := exec_keeps_key_cfg_loadPhase h
  have he := exec_effect h
  obtain ⟨hwf, hnew⟩ := he.keeps_memory
  exact {
    memWf := hcfg ▸ hwf hs.memWf
    reserved := fun p hp => (hnew p hp).elim (hs.reserved p) id
    pcBound := he.pcBound hpc hs.stackBound
    stackBound := he.stackBound hpc hs.stackBound
    notRunning := fun _ => hphase'.trans hphase
    record := fun rec hf => by
      obtain ⟨-, hlegal, -⟩ := he.faulted hrun hf
      exact hlegal }

/-- pc past a word that was fetched: two further, with no wrap, and at most 0x1000. -/
theorem advance_pc_toNat {w : Word} (h : fetch s = .ok w) :
    (advance (s.setLoadPhase .started)).pc.toNat = s.pc.toNat + 2 ∧ s.pc.toNat + 2 ≤ 0x1000 := by
  obtain ⟨hpc, -, -⟩ := fetch_eq_ok h
  have hlt : s.pc.toNat + 2 ≤ 0x1000 := hpc
  refine ⟨?_, hlt⟩
  show (s.pc + 2).toNat = s.pc.toNat + 2
  bv_omega

/-- Past a fetched word the invariant holds, the core having been stepped. -/
theorem State.Inv.advance {w : Word} (hs : s.Inv) (h : fetch s = .ok w) : (advance (s.setLoadPhase .started)).Inv := by
  obtain ⟨hpc, hle⟩ := advance_pc_toNat h
  exact { hs with
    pcBound := by rw [hpc]; exact Nat.le_trans hle (by decide)
    notRunning := fun _ => rfl }

/-- A poll writes a register at most, and its core is not Faulted. -/
theorem inv_of_poll (hs : s.Inv) (x : Reg) (prev : Keys) : (pollKey x prev (s.setLoadPhase .started)).Inv := by
  obtain ⟨heq, -, hnf⟩ := pollKey_cases x prev (s.setLoadPhase .started)
  rw [heq]
  exact { hs with
    notRunning := fun _ => rfl
    record := fun rec h => absurd h (hnf rec) }

/-- A fetch fault has no word, and the address of OutOfBounds is one that does not exist. -/
theorem inv_of_fetchFault {r : Raise} (hs : s.Inv) (h : fetch s = .error r) :
    (fetchFault r (s.setLoadPhase .started)).Inv :=
  { hs with
    notRunning := fun _ => rfl
    record := by
      rintro rec hf
      obtain rfl := RunState.faulted.inj hf
      rcases fetch_eq_error h with ⟨rfl, -⟩ | ⟨rfl, -⟩
      · exact ⟨rfl, rfl, rfl⟩
      · exact legalRecord_outOfBoundsAt (Nat.le_max_right _ _) _ _ }

theorem inv_of_unknownOpcode {w : Word} (hs : s.Inv) (h : fetch s = .ok w) :
    (unknownOpcode s.pc w (advance (s.setLoadPhase .started))).Inv :=
  { hs.advance h with
    notRunning := fun _ => rfl
    record := by
      rintro rec hf
      obtain rfl := RunState.faulted.inj hf
      exact ⟨rfl, rfl, nofun⟩ }

theorem inv_of_step (hs : s.Inv) (h : step s = .next t) : t.Inv := by
  rcases step_cases h with ⟨x, prev, -, rfl⟩ | ⟨-, r, hfetch, rfl⟩ | ⟨hrun, w, hfetch, ⟨e, -, rfl⟩ | ⟨i, hdec, -⟩⟩
  · exact inv_of_poll hs x prev
  · exact inv_of_fetchFault hs hfetch
  · exact inv_of_unknownOpcode hs hfetch
  · obtain ⟨hpc, hle⟩ := advance_pc_toNat hfetch
    exact inv_of_exec (hs.advance hfetch) hrun (hpc ▸ hle) rfl ((step_of_decode hrun hfetch hdec).symm.trans h)

/-- Settles O48: along the cases of a step. -/
theorem stepKeepsTheInvariant : Obligations.StepKeepsTheInvariant := fun _ _ => inv_of_step

/-! ### The other operations -/

/-- The reset state meets the invariant, whatever the parameters and the count of draws. -/
theorem inv_resetWith (c : Config) (draws : Nat) : (State.resetWith c draws).Inv where
  memWf := ⟨.nil, nofun⟩
  reserved := nofun
  pcBound := (by decide : (0x200#16).toNat ≤ 0x10FE)
  stackBound := fun j hj => by simp [State.resetWith]
  notRunning := fun h => absurd rfl h
  record := nofun

/-- Settles O47: power-on is the reset state of the default parameters. -/
theorem resetMeetsTheInvariant : Obligations.ResetMeetsTheInvariant := inv_resetWith defaultConfig 0

/-- A load writes above the protected limit, and is admitted only in a core that runs. -/
theorem inv_of_loadRom {bytes : List Byte} (hs : s.Inv) (h : loadRom bytes s = .next t) : t.Inv := by
  obtain ⟨hlen, hphase, rfl⟩ := loadRom_next h
  obtain ⟨heq, hwf, hnew, -⟩ := putBytes_spec bytes romBase s (Nat.le_refl _) (Nat.add_le_add_left hlen romBase)
  have hrun : s.run = .running := by
    by_contra hrun
    exact absurd (hphase.symm.trans (hs.notRunning hrun)) (by decide)
  rw [heq]
  exact { hs with
    memWf := hwf hs.memWf
    reserved := fun p hp => (hnew p hp).elim (hs.reserved p) id
    notRunning := fun h => absurd hrun h }

theorem inv_of_perform {o : Operation} (hs : s.Inv) (h : perform o s = .next t) : t.Inv := by
  cases o with
  | step => exact inv_of_step hs h
  | tickTimers =>
    obtain rfl := Host.Outcome.next.inj h
    exact { hs with }
  | setPressed k b =>
    obtain rfl := Host.Outcome.next.inj h
    exact { hs with }
  | reset =>
    obtain rfl := Host.Outcome.next.inj h
    exact inv_resetWith s.cfg s.draws
  | loadRom bytes => exact inv_of_loadRom hs h

/-! ### Interleavings -/

/-- What every operation of a list keeps, the list keeps: one that has no next state is passed over (log 7). -/
theorem performAll_induction {P : State → Prop} {os : List Operation}
    (h : ∀ o ∈ os, ∀ s t, P s → perform o s = .next t → P t) (hs : P s) : P (performAll os s) := by
  induction os generalizing s with
  | nil => exact hs
  | cons o os ih =>
    have hrest : ∀ o ∈ os, ∀ s t, P s → perform o s = .next t → P t := fun o ho => h o (List.mem_cons_of_mem _ ho)
    cases hp : perform o s with
    | next t => simpa only [performAll, hp] using ih hrest (h o List.mem_cons_self s t hs hp)
    | fault | refused => simpa only [performAll, hp] using ih hrest hs

/-- Settles O49: every operation keeps the invariant. -/
theorem everyInterleavingKeepsTheInvariant : Obligations.EveryInterleavingKeepsTheInvariant := fun _ _ =>
  performAll_induction fun _ _ _ _ => inv_of_perform

/-! ### The reserved region -/

/-- The reset contents at the font table (20_memory.md R54). -/
theorem resetByte_font (c : Config) (j : Nat) (h : j < 80) : resetByte c (c.fontBase.val + j) = c.fontBytes[j] := by
  have hin : c.fontBase.val ≤ c.fontBase.val + j ∧ c.fontBase.val + j < c.fontBase.val + fontSize :=
    ⟨Nat.le_add_right _ _, Nat.add_lt_add_left h _⟩
  simp [resetByte, hin]

theorem resetByte_outside (c : Config) {a : Nat} (h : a < c.fontBase.val ∨ c.fontBase.val + 80 ≤ a) :
    resetByte c a = 0 := dif_neg (by simp only [fontSize]; omega)

/-- The parameters are written by no operation (log 1). -/
theorem perform_cfg {o : Operation} (h : perform o s = .next t) : t.cfg = s.cfg := by
  cases o with
  | step =>
    rcases step_cases h with ⟨x, prev, -, rfl⟩ | ⟨-, r, -, rfl⟩ | ⟨hrun, w, hfetch, ⟨e, -, rfl⟩ | ⟨i, hdec, -⟩⟩
    · rw [(pollKey_cases x prev (s.setLoadPhase .started)).1]
      rfl
    · rfl
    · rfl
    · obtain ⟨-, hcfg, -⟩ := exec_keeps_key_cfg_loadPhase ((step_of_decode hrun hfetch hdec).symm.trans h)
      exact hcfg
  | tickTimers | setPressed | reset =>
    obtain rfl := Host.Outcome.next.inj h
    rfl
  | loadRom bytes =>
    obtain ⟨hlen, -, rfl⟩ := loadRom_next h
    rw [(putBytes_spec bytes romBase s (Nat.le_refl _) (Nat.add_le_add_left hlen romBase)).1]
    rfl

/-- In a state that meets the invariant the reserved region reads as after a reset. -/
theorem State.Inv.byteAt_reserved (hs : s.Inv) {a : Nat} (ha : a < protectedLimit) : s.byteAt a = resetByte s.cfg a :=
  Memory.read_unlisted s.cfg fun p hp => Nat.ne_of_gt (Nat.lt_of_lt_of_le ha (hs.reserved p hp))

/-- Settles O50: the invariant holds after the list, and the parameters are the same. -/
theorem reservedRegionHoldsTheFontTable : Obligations.ReservedRegionHoldsTheFontTable := by
  intro os s a hs ha t
  have hcfg : t.cfg = s.cfg :=
    performAll_induction (P := fun t => t.cfg = s.cfg) (fun _ _ _ _ ht h => (perform_cfg h).trans ht) rfl
  have hbyte : t.byteAt a = resetByte s.cfg a := by
    rw [(everyInterleavingKeepsTheInvariant os s hs).byteAt_reserved ha, ← hcfg]
  refine ⟨hcfg, fun j hj haj => ?font, fun hout => ?outside⟩
  case font => rw [hbyte, haj, resetByte_font s.cfg j hj]
  case outside => rw [hbyte, resetByte_outside s.cfg hout]

end Sys2Proof.Machine
end

section
/-! PROOFS. Dead stack entries are unobservable (10_state.md section 4, D31): every operation but a call and a return
commutes with replacing the stack entries, and those two look at live entries only. -/

namespace Sys2Proof.Machine

/-- `s` with other stack entries. -/
def State.withStack (s : State) (e : Vector Word 16) : State := { s with stack := e }

/-- An outcome with its next state, if it has one, changed by `f`. -/
def mapNext (f : State → State) : Result → Result
  | .next s => .next (f s)
  | .fault r => .fault r
  | .refused r => .refused r

variable (s : State) (e : Vector Word 16)

/-! ### The shared operations -/

@[simp] theorem readV_withStack (r : Reg) : (s.withStack e).readV r = s.readV r := rfl
@[simp] theorem withStack_pix : (s.withStack e).pix = s.pix := rfl

theorem skipIf_withStack (c : Bool) : (s.withStack e).skipIf c = (s.skipIf c).withStack e := by
  cases c <;> rfl

theorem writeBack_withStack (x : Reg) (rf : Byte × Bool) :
    (s.withStack e).writeBack x rf = (s.writeBack x rf).withStack e := by
  unfold State.writeBack
  rw [show (s.withStack e).cfg = s.cfg from rfl]
  cases s.cfg.aluVfDest with
  | resultWins | flagWins => rfl
  | any => by_cases hx : x = VF <;> simp only [hx, if_true, if_false] <;> rfl

theorem storeBytes_withStack (bs : List Byte) (a : Nat) :
    (s.withStack e).storeBytes a bs = ((s.storeBytes a bs).1.withStack e, (s.storeBytes a bs).2) := by
  induction bs generalizing s a with
  | nil => rfl
  | cons b bs ih =>
    by_cases hlo : a < protectedLimit
    · simp only [State.storeBytes, memWrite_protected hlo]
    by_cases hhi : memSize ≤ a
    · simp only [State.storeBytes, memWrite_outOfBounds hhi]
    · simp only [State.storeBytes, memWrite_ok (Nat.le_of_not_lt hlo) (Nat.lt_of_not_le hhi)]
      exact ih (s.putByte a b) (a + 1)

theorem loadRegs_withStack (rs : List Reg) (a : Nat) :
    (s.withStack e).loadRegs a rs = ((s.loadRegs a rs).1.withStack e, (s.loadRegs a rs).2) := by
  induction rs generalizing s a with
  | nil => rfl
  | cons r rs ih =>
    by_cases h : memSize ≤ a
    · simp only [State.loadRegs, memRead_error h]
    · simp only [State.loadRegs, memRead_ok (Nat.lt_of_not_le h)]
      exact ih (s.writeV r (s.byteAt a)) (a + 1)

theorem drawRows_withStack (px py k r : Nat) (acc : Bool × Display) :
    drawRows (s.withStack e) px py k r acc = drawRows s px py k r acc :=
  drawRows_congr (t := s.withStack e) (s := s) rfl (fun _ => rfl) px py k r acc

theorem finish_withStack (i : Instr) (p : State × Option Raise) :
    finish i (p.1.withStack e, p.2) = mapNext (·.withStack e) (finish i p) := by
  obtain ⟨s, r⟩ := p
  cases r <;> rfl

theorem orRaise_withStack {α : Type} (i : Instr) (v : Except Raise α) {rest rest' : α → Result}
    (h : ∀ a, rest' a = mapNext (·.withStack e) (rest a)) :
    orRaise i (s.withStack e) v rest' = mapNext (·.withStack e) (orRaise i s v rest) := by
  cases v with
  | ok a => exact h a
  | error r => rfl

theorem putBytes_withStack (bs : List Byte) (a : Nat) :
    putBytes a bs (s.withStack e) = (putBytes a bs s).withStack e := by
  induction bs generalizing s a with
  | nil => rfl
  | cons b bs ih => exact ih (s.putByte a b) (a + 1)

theorem pollKey_withStack (x : Reg) (prev : Keys) :
    pollKey x prev (s.withStack e) = (pollKey x prev s).withStack e := by
  unfold pollKey
  rw [show (s.withStack e).key = s.key from rfl, show (s.withStack e).cfg = s.cfg from rfl]
  cases freshKeys s.key prev with
  | nil => rfl
  | cons k ks => cases s.cfg.keySelect <;> rfl

/-! ### The instructions -/

/-- An instruction that is no call and no return does not look at the stack entries. -/
theorem exec_withStack {i : Instr} (h : i.mnemonic ∉ [Mnemonic.CALL, .RET]) :
    exec i (s.withStack e) = mapNext (·.withStack e) (exec i s) := by
  cases i with
  | call | ret => exact absurd (by simp [Instr.mnemonic]) h
  | seImm | sneImm | seReg | sneReg => exact congrArg Host.Outcome.next (skipIf_withStack s e _)
  | addReg | sub | shr | subn | shl => exact congrArg Host.Outcome.next (writeBack_withStack s e _ _)
  | skp x | sknp x => exact orRaise_withStack s e _ _ fun k => congrArg Host.Outcome.next (skipIf_withStack s e _)
  | ldF x => exact orRaise_withStack s e _ _ fun d => rfl
  | ldB | ldMemVx =>
    exact (congrArg (finish _) (storeBytes_withStack s e _ _)).trans (finish_withStack e _ _)
  | ldVxMem =>
    exact (congrArg (finish _) (loadRegs_withStack s e _ _)).trans (finish_withStack e _ _)
  | drw x y n =>
    simp only [exec, execDrw, drawRows_withStack, readV_withStack, withStack_pix]
    cases (drawRows s (s.readV x).toNat (s.readV y).toNat n.val 0 (false, s.pix)).2 <;> rfl
  | cls | jp | ldImm | addImm | ldReg | orReg | andReg | xorReg => rfl
  | ldI | jpV0 | rnd | ldVxDt | ldVxK | ldDt | ldSt | addI => rfl

/-! ### The relation between outcomes -/

/-- Two outcomes that differ at most in dead stack entries. -/
inductive SameOutcome : Result → Result → Prop
  | next {s t : State} (h : SameLiveStack s t) : SameOutcome (.next s) (.next t)
  | fault (f : Fault) : SameOutcome (.fault f) (.fault f)
  | refused (r : Refusal) : SameOutcome (.refused r) (.refused r)

theorem SameOutcome.spec {r r' : Result} (h : SameOutcome r r') :
    (∀ s, r = .next s → ∃ t, r' = .next t ∧ SameLiveStack s t) ∧ (∀ f, r = .fault f → r' = .fault f) ∧
      ∀ q, r = .refused q → r' = .refused q := by
  cases h with
  | next h =>
    refine ⟨fun s hs => ?_, nofun, nofun⟩
    obtain rfl := Host.Outcome.next.inj hs
    exact ⟨_, rfl, h⟩
  | fault f => exact ⟨fun _ h => (by cases h), fun _ => id, nofun⟩
  | refused q => exact ⟨fun _ h => (by cases h), nofun, fun _ => id⟩

variable {s} {t : State}

theorem SameLiveStack.exists_withStack (h : SameLiveStack s t) :
    ∃ e, t = s.withStack e ∧ ∀ j (h : j < 16), j < s.SP.val → e[j] = s.stack[j] := ⟨t.stack, h⟩

theorem SameLiveStack.refl (s : State) : SameLiveStack s s := ⟨rfl, fun _ _ _ => rfl⟩

section
variable {e} (hlive : ∀ j (h : j < 16), j < s.SP.val → e[j] = s.stack[j])
include hlive

/-- An update that leaves SP and the entries, and does not look at the entries, keeps the live ones the same. -/
theorem sameOutcome_of_keeps {r : Result} {u : State} (hr : r = .next (u.withStack e)) (hSP : u.SP = s.SP)
    (hstack : u.stack = s.stack) : SameOutcome (.next u) r := by
  subst hr
  refine .next ⟨rfl, fun j hj hlt => ?_⟩
  rw [hSP] at hlt
  rw [hstack]
  exact hlive j hj hlt

/-- A call pushes the same address on both stacks. -/
theorem sameOutcome_call (nnn : Addr12) : SameOutcome (exec (.call nnn) s) (exec (.call nnn) (s.withStack e)) := by
  by_cases h : s.SP.val < 16
  · rw [exec_call_of_lt nnn h, exec_call_of_lt (s := s.withStack e) nnn h]
    refine .next ⟨rfl, fun j hj hlt => ?_⟩
    show (e.set s.SP.val s.pc)[j] = (s.stack.set s.SP.val s.pc)[j]
    rw [Vector.getElem_set, Vector.getElem_set]
    split
    · rfl
    · have hlt : j < s.SP.val + 1 := hlt
      exact hlive j hj (by omega)
  · rw [exec_call_of_full nnn h, exec_call_of_full (s := s.withStack e) nnn h]
    exact .next ⟨rfl, hlive⟩

/-- A return pops the topmost live entry. -/
theorem sameOutcome_ret (d : Nibble) : SameOutcome (exec (.ret d) s) (exec (.ret d) (s.withStack e)) := by
  by_cases h : s.SP.val = 0
  · rw [exec_ret_of_empty d h, exec_ret_of_empty (s := s.withStack e) d h]
    exact .next ⟨rfl, hlive⟩
  · rw [exec_ret_of_ne d h, exec_ret_of_ne (s := s.withStack e) d h]
    have hpopped : e[s.SP.val - 1] = s.stack[s.SP.val - 1] := hlive _ _ (by omega)
    refine .next ⟨?_, fun j hj hlt => hlive j hj (Nat.lt_of_lt_of_le hlt (Nat.sub_le _ _))⟩
    show ((s.withStack e).setStack _ e).setPc e[s.SP.val - 1] = _
    rw [hpopped]
    rfl

theorem sameOutcome_exec (i : Instr) : SameOutcome (exec i s) (exec i (s.withStack e)) := by
  by_cases hi : i.mnemonic ∈ [Mnemonic.CALL, .RET]
  · cases i with
    | call nnn => exact sameOutcome_call hlive nnn
    | ret d => exact sameOutcome_ret hlive d
    | _ => simp [Instr.mnemonic] at hi
  · obtain ⟨u, hu, -⟩ := exec_next_effect i s
    obtain ⟨hSP, hstack⟩ := exec_keeps_stack hu hi
    rw [hu]
    exact sameOutcome_of_keeps hlive (by rw [exec_withStack s e hi, hu]; rfl) hSP hstack

/-! ### The operations -/

/-- Fetch and decode do not look at the stack. -/
theorem sameOutcome_stepRunning : SameOutcome (stepRunning s) (stepRunning (s.withStack e)) := by
  unfold stepRunning
  rw [show fetch (s.withStack e) = fetch s from rfl]
  cases fetch s with
  | error r => exact .next ⟨rfl, hlive⟩
  | ok w =>
    simp only [dispatchWord]
    rw [show (advance (s.withStack e)).cfg = (advance s).cfg from rfl]
    cases decode (advance s).cfg.decodeDontCare w with
    | error r => exact .next ⟨rfl, hlive⟩
    | ok i => exact sameOutcome_exec (s := advance s) hlive i

theorem sameOutcome_step : SameOutcome (step s) (step (s.withStack e)) := by
  unfold step
  rw [show (s.withStack e).run = s.run from rfl]
  cases s.run with
  | running => exact sameOutcome_stepRunning (s := s.setLoadPhase .started) hlive
  | faulted rec => exact .fault _
  | awaitingKey x prev =>
    have heq := (pollKey_cases x prev (s.setLoadPhase .started)).1
    exact sameOutcome_of_keeps hlive (congrArg Host.Outcome.next (pollKey_withStack (s.setLoadPhase .started) e x prev))
      (by rw [heq]; rfl) (by rw [heq]; rfl)

theorem sameOutcome_loadRom (bytes : List Byte) : SameOutcome (loadRom bytes s) (loadRom bytes (s.withStack e)) := by
  unfold loadRom
  rw [show (s.withStack e).loadPhase = s.loadPhase from rfl]
  cases s.loadPhase with
  | romLoaded | started => exact .refused _
  | awaitingRom =>
    by_cases hlen : bytes.length > romMax
    · simp only [hlen, if_true]
      exact .fault _
    · have hfits := Nat.add_le_add_left (Nat.le_of_not_gt hlen) romBase
      obtain ⟨heq, -⟩ := putBytes_spec bytes romBase s (Nat.le_refl _) hfits
      simp only [hlen, if_false, putBytes_withStack]
      exact sameOutcome_of_keeps hlive rfl (by rw [heq]; rfl) (by rw [heq]; rfl)

theorem sameOutcome_perform (o : Operation) : SameOutcome (perform o s) (perform o (s.withStack e)) := by
  cases o with
  | step => exact sameOutcome_step hlive
  | tickTimers => exact .next ⟨rfl, hlive⟩
  | setPressed k b => exact .next ⟨rfl, hlive⟩
  | reset => exact .next (.refl _)
  | loadRom bytes => exact sameOutcome_loadRom hlive bytes

end

/-- Settles O52: every operation has the same outcome in both states, but for dead entries. -/
theorem deadStackEntriesAreUnobservable : Obligations.DeadStackEntriesAreUnobservable := by
  intro o s t h
  obtain ⟨e, rfl, hlive⟩ := h.exists_withStack
  exact (sameOutcome_perform hlive o).spec

end Sys2Proof.Machine
end

section
/-! PROOFS. What a step leaves in pc and in the fault record (10_state.md R26, 60_exceptions.md R202), and the operations
on the whole state: reset, load_rom, and the lists that leave a stopped core stopped. -/

namespace Sys2Proof.Machine

variable {s t : State}

/-! ### A step that ends Faulted -/

/-- Settles O9: only a fetch fault, an unknown word and a raise end Faulted, and the word of a raise is the encoding
of what it decoded to. -/
theorem faultRecordNamesTheFetchedWord : Obligations.FaultRecordNamesTheFetchedWord := by
  intro s t rec hrun hstep hf
  rcases step_cases hstep with ⟨x, prev, hwait, -⟩ | ⟨-, r, -, rfl⟩ | ⟨-, w, hfetch, hend⟩
  · exact absurd (hwait.symm.trans hrun) (by simp)
  · obtain rfl := RunState.faulted.inj hf
    exact ⟨rfl, .inl ⟨rfl, rfl⟩⟩
  · obtain ⟨-, -, rfl⟩ := fetch_eq_ok hfetch
    rcases hend with ⟨e, -, rfl⟩ | ⟨i, hdec, heffect⟩
    · obtain rfl := RunState.faulted.inj hf
      exact ⟨rfl, .inr ⟨rfl, rfl⟩⟩
    · obtain ⟨-, -, hpc, hopcode, hstay⟩ := heffect.faulted hrun hf
      obtain ⟨hword, -⟩ := encode_of_decode hdec
      exact ⟨hpc.trans (BitVec.add_sub_cancel s.pc 2), .inr ⟨hopcode.trans (congrArg some hword), hstay⟩⟩

/-! ### A step that does not -/

/-- The table of pc reads what the fetch and the load window leave. -/
theorem pcAfter_advance (A : Nat) (s : State) (i : Instr) :
    pcAfter A (advance (s.setLoadPhase .started)) i = pcAfter A s i := by
  cases i <;> rfl

/-- pc after an effect that does not end Faulted, by the table for the address that pc is two past. -/
theorem Effect.pc_eq_pcAfter {i : Instr} {A : Nat} (h : Effect i s t) (hnf : ∀ rec, t.run ≠ .faulted rec)
    (hpc : s.pc.toNat = A + 2) (hA : A + 2 ≤ 0x1000) : t.pc.toNat = pcAfter A s i := by
  cases h with
  | regs t ht _ _ htab => rw [htab, ht, hpc]
  | skip hm htab =>
    rw [htab]
    cases skipTaken s i with
    | false => exact hpc
    | true =>
      show (s.pc + 2).toNat = A + 4
      bv_omega
  | jump a hm ha htab => exact (htab A).symm
  | call nnn hi =>
    subst hi
    exact addrOperand_toNat nnn
  | ret d hi hSP =>
    subst hi
    simp [pcAfter, hSP]
  | index a hm htab => rw [htab, ← hpc]; rfl
  | store a bs hm htab => rw [htab, storeBytes_eq_setMem, ← hpc]; rfl
  | draw d b x y n hi | clear d hi | wait x hi | delay x hi | sound x hi =>
    subst hi
    exact hpc
  | storeFault | loadFault | drawFault | stackFault | operandFault => exact absurd rfl (hnf _)

/-- Settles O10: each effect sets pc by its row of the table. -/
theorem pcAfterStepFollowsTheTable : Obligations.PcAfterStepFollowsTheTable := by
  intro s t w i hrun hfetch hdec hstep hnf
  have heffect := exec_effect ((step_of_decode hrun hfetch hdec).symm.trans hstep)
  obtain ⟨hpc, hle⟩ := advance_pc_toNat hfetch
  rw [heffect.pc_eq_pcAfter hnf hpc hle, pcAfter_advance]

/-! ### A stopped core -/

/-- A stopped core, but for the timers and the keys. -/
def OnlyTimersAndKeys (s t : State) : Prop := t = { s with DT := t.DT, ST := t.ST, key := t.key }

/-- In a stopped core a step and a load have no next state. -/
theorem perform_of_stopped {rec : FaultRecord} {o : Operation} {u : State} (hrun : s.run = .faulted rec)
    (hphase : s.loadPhase = .started) (ho : o ≠ .reset) (hs : OnlyTimersAndKeys s t) (h : perform o t = .next u) :
    OnlyTimersAndKeys s u := by
  have hrun' : t.run = .faulted rec := by rw [hs]; exact hrun
  have hphase' : t.loadPhase = .started := by rw [hs]; exact hphase
  cases o with
  | step => exact absurd h (by simp [perform, step, hrun'])
  | loadRom bytes => exact absurd h (by simp [perform, loadRom, hphase'])
  | reset => exact absurd rfl ho
  | tickTimers | setPressed =>
    obtain rfl := Host.Outcome.next.inj h
    rw [OnlyTimersAndKeys, hs]
    rfl

/-- Settles O51: every operation but a reset keeps the core stopped. -/
theorem onlyResetLeavesFaulted : Obligations.OnlyResetLeavesFaulted := fun _ s _ hrun hphase hos =>
  performAll_induction (P := OnlyTimersAndKeys s) (fun o ho _ _ => perform_of_stopped hrun hphase (hos o ho)) rfl

/-! ### reset and load_rom -/

/-- Settles O54: the reset state lists no byte, so every byte reads as its reset content. -/
theorem resetSetsEveryPieceOfState : Obligations.ResetSetsEveryPieceOfState := by
  refine ⟨rfl, fun s => ?_⟩
  exact ⟨fun r => Vector.getElem_replicate _, rfl, rfl, rfl, fun j hj => Vector.getElem_replicate _, rfl, rfl,
    pixelAt_blankDisplay, fun k => Vector.getElem_replicate _, rfl, rfl, rfl, rfl, resetByte_font s.cfg,
    fun a => resetByte_outside s.cfg⟩

/-- Settles O55: the three cases of load_rom. -/
theorem loadRomCopiesTheImage : Obligations.LoadRomCopiesTheImage := by
  intro bytes s hwf
  refine ⟨fun hphase hlen => ?copied, fun hphase hlen => ?tooLarge, fun hphase => ?refused⟩
  case copied =>
    obtain ⟨heq, -, -, houtside, hin⟩ :=
      putBytes_spec bytes romBase s (Nat.le_refl _) (Nat.add_le_add_left hlen romBase)
    refine ⟨(putBytes romBase bytes s).setLoadPhase .romLoaded, ?_, hin hwf, houtside, ?_⟩
    · simp only [loadRom, hphase, Nat.not_lt.2 hlen, if_false]
    · rw [heq]
      rfl
  case tooLarge => simp only [loadRom, hphase, gt_iff_lt, hlen, if_true]
  case refused =>
    cases h : s.loadPhase with
    | awaitingRom => exact absurd h hphase
    | romLoaded | started => simp only [loadRom, h]

end Sys2Proof.Machine
end
